-- ==== Sys2Proof/Word.lean ====
section
/-! DEFINITION. The bit-vector types of the block: the widths the spec gives its registers, cells, ports and words. -/

namespace Sys2Proof

/-- A byte: an attribute, a character code, a port byte, a scancode table entry (00_scope.md R7). -/
abbrev Byte := BitVec 8

/-- A 32-bit command word (30_encoding.md R70). -/
abbrev Word := BitVec 32

/-- A 16-bit framebuffer cell (10_state.md R29). -/
abbrev CellWord := BitVec 16

/-- A 7-bit column (10_state.md R21, 30_encoding.md R71). -/
abbrev Col := BitVec 7

/-- A 5-bit row (10_state.md R22, 30_encoding.md R71). -/
abbrev Row := BitVec 5

/-- A 16-bit I/O port number (20_memory.md R50; PRESUMED, log entry 12). -/
abbrev Port := BitVec 16

/-- A 7-bit make code (10_state.md R37). -/
abbrev MakeCode := BitVec 7

/-- The scancode table: 128 signed bytes (10_state.md R32). -/
abbrev ScancodeTable := Vector Byte 128

end Sys2Proof
end

