-- ==== Sys2Proof/Config.lean ====
section
/-! DEFINITION. The parameters of 00_scope.md R6: the fixed ones as constants, the decided and OPEN ones as a
record of plain data, and the values the spec leaves free as constants without a body. -/

namespace Sys2Proof

/-- Columns of the grid (R6, fixed). -/
def Config.width : Nat := 80

/-- Rows of the grid (R6, fixed). -/
def Config.height : Nat := 25

/-- Cells of the grid (R6, fixed). -/
def Config.cells : Nat := 2000

/-- Bytes of a cell (R6, fixed). -/
def Config.cellBytes : Nat := 2

/-- First byte of the framebuffer (R6, fixed). -/
def Config.fbBase : Nat := 0xB8000

/-- Bytes of the framebuffer (R6, derived there). -/
def Config.fbBytes : Nat := 4000

/-- White on black (R6, R103, fixed). -/
def Config.defaultAttr : Byte := 0x0F

/-- The space (R6, fixed). -/
def Config.fillChar : Byte := 0x20

/-- Keyboard controller data port (R6, fixed). -/
def Config.kbdDataPort : Port := 0x60

/-- Keyboard controller status port (R6, fixed). -/
def Config.kbdStatusPort : Port := 0x64

/-- The line-feed byte the NEWLINE policy looks for (40_console.md R109). -/
def Config.lineFeed : Byte := 0x0A

/-- LF_POLICY (R6, 92_eei_decisions.md D11). -/
inductive LfPolicy where
  | glyph
  | newline
  deriving DecidableEq, Repr

/-- CLEAR_FILL (R6, 92_eei_decisions.md D10). -/
inductive ClearFill where
  | current
  | default
  deriving DecidableEq, Repr

/-- The parameters the spec leaves to the model's user (R6). `fkeyIndex[n-1]` is FKEY_INDEX(n). Log entries 6 and 7. -/
structure Params where
  lfPolicy : LfPolicy
  clearFill : ClearFill
  fkeyIndex : Vector MakeCode 9
  modifierIndices : List MakeCode
  deriving DecidableEq, Repr

/-- The parameters a machine starts with: GLYPH (normative), CURRENT (decided), and the default indices of R6.
PRESUMED for the indices, log entry 7; log entry 6 for the two policies. -/
def Params.atReset : Params where
  lfPolicy := .glyph
  clearFill := .current
  fkeyIndex := #v[59, 60, 61, 62, 63, 64, 65, 66, 67]
  modifierIndices := [29, 42, 54, 56]

/-- FREE VALUE: a scancode table entry the spec does not list (10_state.md R33, 91_not_in_source.md N1), by make
code. Log entry 5. -/
opaque Config.openEntry : MakeCode → Byte

/-- FREE VALUE: the byte the environment answers when no scripted byte is left (20_memory.md R58), by port and by
the number of the draw. Log entry 4. -/
opaque Config.portByte : Port → Nat → Byte

/-- FREE VALUE: what a framebuffer byte holds before a command writes it (10_state.md R28), by the number of the
reset and the address. Log entry 3. -/
opaque Config.powerOnByte : Nat → Nat → Byte

end Sys2Proof
end

