-- ==== Sys2Proof/Machine/Memory.lean ====
section
/-! DEFINITION. Physical memory as far as the block reaches it: the framebuffer's bytes, a list of (address, byte)
pairs in one canonical form (20_memory.md R50-R57). -/

namespace Sys2Proof.Machine

/-- The bytes commands have written. A byte that is not listed has no value: the spec gives the framebuffer no reset
contents (10_state.md R28; log entry 3). -/
abbrev Memory := List Host.Cell

/-- The canonical form: addresses strictly rising. An unlisted byte has no value, so no entry can equal what an
unlisted address reads as. -/
abbrev Memory.wf (m : Memory) : Prop := m.Pairwise fun p q => p.1 < q.1

/-- The byte at an address, `none` where no command has written one. -/
def readByte (m : Memory) (addr : Nat) : Option Byte :=
  match m with
  | [] => none
  | (k, v) :: rest => if k = addr then some v else readByte rest addr

/-- Write one byte, keeping the addresses rising. -/
def writeByte (m : Memory) (addr : Nat) (b : Byte) : Memory :=
  match m with
  | [] => [(addr, b)]
  | (k, v) :: rest =>
    if addr < k then (addr, b) :: (k, v) :: rest
    else if addr = k then (addr, b) :: rest
    else (k, v) :: writeByte rest addr b

/-- `MemWrite(addr, 2, v)`: little-endian, the character below the attribute (20_memory.md R53, R54). -/
def writeCell (m : Memory) (addr : Nat) (v : CellWord) : Memory :=
  writeByte (writeByte m addr (v.extractLsb' 0 8)) (addr + 1) (v.extractLsb' 8 8)

/-- The byte address of the cell of linear index `i`: `FB_BASE + 2*i` (20_memory.md R52). -/
def indexAddr (i : Nat) : Nat := Config.fbBase + Config.cellBytes * i

/-- The framebuffer's bytes with `v` in every cell, in address order. -/
def paintedBytes (v : CellWord) : Memory :=
  (List.range Config.cells).flatMap fun i =>
    [(indexAddr i, v.extractLsb' 0 8), (indexAddr i + 1, v.extractLsb' 8 8)]

/-- The repaint of INIT and CLEAR: `v` into every cell (40_console.md R102, R104). Written as its outcome: what lies
below the window, the window painted, what lies above. It is the spec's loop of 2000 cell writes in ascending order on
every canonical memory: `fillCells_eq_loop` in Laws/Memory.lean. -/
def fillCells (m : Memory) (v : CellWord) : Memory :=
  m.filter (fun p => decide (p.1 < Config.fbBase)) ++
    (paintedBytes v ++ m.filter (fun p => decide (Config.fbBase + Config.fbBytes ≤ p.1)))

end Sys2Proof.Machine
end

