-- ==== Sys2Proof/Machine/Scancode.lean ====
section
/-! DEFINITION. The scancode table, the constraints on it, its contents at reset, and the decoding function
(10_state.md R32-R34, 41_keyboard.md R130). -/

namespace Sys2Proof.Machine

/-- T[m]. -/
def scancode (t : ScancodeTable) (m : MakeCode) : Byte :=
  t[m.toNat]'(by have := m.isLt; omega)

/-- What R33 demands of every table a model takes. Its last clause, that an entry is 0, an ASCII code 0x01..0x7F or
negative, holds of every signed byte. -/
abbrev TableOk (p : Params) (t : ScancodeTable) : Prop :=
  scancode t 30 = 0x61 ∧ scancode t 28 = 0x0A ∧ scancode t 57 = 0x20 ∧
  (∀ n : Fin 9, (scancode t p.fkeyIndex[n]).toInt = -((n.val : Int) + 1)) ∧
  (∀ m ∈ p.modifierIndices, scancode t m = 0) ∧
  p.fkeyIndex.toList.Nodup

/-- One entry of a table that keeps R33: the listed entries, 0 for a modifier, -n for Fn, `open_` elsewhere. -/
def tableEntry (p : Params) (open_ : MakeCode → Byte) (m : MakeCode) : Byte :=
  if m = 30 then 0x61
  else if m = 28 then 0x0A
  else if m = 57 then 0x20
  else if m ∈ p.modifierIndices then 0
  else match p.fkeyIndex.toList.idxOf? m with
    | some k => BitVec.ofInt 8 (-((k : Int) + 1))
    | none => open_ m

/-- The 128 entries. -/
def tableOf (p : Params) (open_ : MakeCode → Byte) : ScancodeTable :=
  Vector.ofFn fun i => tableEntry p open_ (BitVec.ofNat 7 i)

/-- BRK, bit 7 of a data byte: a key-release code (10_state.md R37). -/
def isBreak (b : Byte) : Bool := b.getLsbD 7

/-- MAKE, bits 6:0 of a data byte (10_state.md R37). -/
def makeOf (b : Byte) : MakeCode := b.extractLsb' 0 7

/-- `e > 0`, the entry read as a signed byte (10_state.md R34). -/
def printable (e : Byte) : Bool := decide (0 < e.toInt)

/-- `decode_sc` (41_keyboard.md R130). -/
def decodeSc (t : ScancodeTable) (b : Byte) : Option Byte :=
  if isBreak b then none
  else if printable (scancode t (makeOf b)) then some (scancode t (makeOf b))
  else none

end Sys2Proof.Machine
end

