-- ==== Sys2Proof/Machine/State.lean ====
section
/-! DEFINITION. The state of the block, of the run it executes and of its environment, as plain data (10_state.md R20),
and the state after reset (70_reset_and_hazards.md R180). -/

namespace Sys2Proof.Machine

/-- The keyboard driver's two states (10_state.md R35). -/
inductive KbdState where
  | idle
  | dispatch
  deriving DecidableEq, Repr

/-- The fault codes (60_exceptions.md R151). -/
inductive FaultCode where
  | none
  | illegal
  | coord
  | uninit
  deriving DecidableEq, Repr

/-- An event of the history (20_memory.md R58, R62; 70_reset_and_hazards.md R189). -/
inductive Event where
  /-- `IoRead(port)` answered `b`. -/
  | ioRead (port : Port) (b : Byte)
  /-- `MemWrite(addr, 2, v)`. -/
  | memWrite (addr : Nat) (v : CellWord)
  deriving DecidableEq, Repr

/-- Why a step stops the machine. A fault the spec raises is a NEXT state (`faulted`); this is what follows it
(log entry 8). -/
inductive Fault where
  /-- Raised by `step` on a block that is already faulted with `code`: it executes no further command
  (60_exceptions.md R152, R158). Safe: the machine stops as the spec says. -/
  | stuck (code : FaultCode)
  deriving DecidableEq, Repr

/-- Why an instruction has no meaning. -/
inductive Refusal where
  /-- The instruction of this mnemonic has no meaning in the model; no arm answers it now. Safe. -/
  | notModelled (mnemonic : String)
  deriving DecidableEq, Repr

structure State where
  /-- The cursor column (R21). -/
  col : Col
  /-- The cursor row (R22). -/
  row : Row
  /-- The current attribute (R24). -/
  attr : Byte
  /-- The cursor has been written (R25). -/
  curValid : Bool
  /-- The attribute has been written (R25). -/
  attrValid : Bool
  /-- The events so far, oldest first (R58, R189; log entry 9). -/
  history : List Event
  /-- The framebuffer (R28). -/
  mem : Memory
  /-- The keyboard driver's state (R35). -/
  kbdState : KbdState
  /-- The sticky fault bit (R31). -/
  faulted : Bool
  /-- The fault code (R31). -/
  faultCode : FaultCode
  /-- The command word kept with a fault (60_exceptions.md R151, R152). -/
  faultWord : Option Word
  /-- The scancode table, read-only (R32). -/
  table : ScancodeTable
  /-- The parameters of R6, read-only (log entry 6). -/
  params : Params
  /-- The command words of the run (R26, R189; log entry 1). -/
  words : List Word
  /-- The run's position in its words (R26). -/
  pos : Nat
  /-- The scripted port bytes still to be answered (R58, R189; log entry 4). -/
  portScript : List Byte
  /-- The model's own: how many free port bytes have been taken (log entry 4). -/
  draws : Nat
  /-- The model's own: how many resets came before (log entry 3). -/
  resets : Nat
  deriving DecidableEq, Repr

/-- The state after reset (70_reset_and_hazards.md R180). DESIGN CHOICE: `col`, `row` and `attr` hold 0, where the
spec says "unspecified" (log entry 2); no command uses them before writing them (R25). No run is loaded yet (log
entry 1). -/
def State.reset : State where
  col := 0
  row := 0
  attr := 0
  curValid := false
  attrValid := false
  history := []
  mem := []
  kbdState := .idle
  faulted := false
  faultCode := .none
  faultWord := Option.none
  table := tableOf Params.atReset Config.openEntry
  params := Params.atReset
  words := []
  pos := 0
  portScript := []
  draws := 0
  resets := 0

end Sys2Proof.Machine
end

