-- ==== Sys2Proof/Machine/Flags.lean ====
section
/-! DEFINITION. The block's status bits. It has no condition flag (10_state.md R31): the validity bits say whether a
register may be read, the fault code has a number. -/

namespace Sys2Proof.Machine

/-- Both console registers have been written: what PUTC needs (40_console.md R108). -/
def State.consoleWritten (s : State) : Bool := s.curValid && s.attrValid

/-- The value of a fault code (60_exceptions.md R151; the numbers are the spec's own). -/
def FaultCode.value : FaultCode → Nat
  | .none => 0
  | .illegal => 1
  | .coord => 2
  | .uninit => 3

end Sys2Proof.Machine
end

