-- ==== Sys2Proof/Syntax.lean ====
section
/-! DEFINITION. The block's commands, one constructor per row of spec/opcode_table.json (30_encoding.md R73). -/

namespace Sys2Proof

/-- A command with its operands, each at the width of its field (30_encoding.md R71). -/
inductive Instr where
  /-- INIT (40_console.md R102). -/
  | init
  /-- CLEAR (40_console.md R104). -/
  | clear
  /-- SETCOLOR A (40_console.md R106). -/
  | setcolor (a : Byte)
  /-- PUTCAT C, A, X, Y (40_console.md R107). -/
  | putcat (c : Byte) (a : Byte) (x : Col) (y : Row)
  /-- PUTC C (40_console.md R108). -/
  | putc (c : Byte)
  /-- SETCUR X, Y (40_console.md R110). -/
  | setcur (x : Col) (y : Row)
  /-- KPOLL (41_keyboard.md R131). -/
  | kpoll
  deriving DecidableEq, Repr

end Sys2Proof
end

