-- ==== Sys2Proof/Decode.lean ====
section
/-! DEFINITION. Command words: decoding, total on all words, rejecting by name, and the encoder (30_encoding.md
R70-R77). -/

namespace Sys2Proof

/-! ### Fields of format CW (30_encoding.md R71) -/

/-- OP = w[31:28]. -/
def opField (w : Word) : BitVec 4 := w.extractLsb' 28 4

/-- Y = w[27:23]. -/
def yField (w : Word) : Row := w.extractLsb' 23 5

/-- X = w[22:16]. -/
def xField (w : Word) : Col := w.extractLsb' 16 7

/-- A = w[15:8]. -/
def aField (w : Word) : Byte := w.extractLsb' 8 8

/-- C = w[7:0]. -/
def cField (w : Word) : Byte := w.extractLsb' 0 8

/-! ### Patterns (30_encoding.md R74) -/

/-- A row of the table of R74: the word spells the command exactly when `w & mask = value`. -/
structure Pattern where
  mask : Word
  value : Word
  deriving DecidableEq, Repr

/-- `w & mask = value`. -/
def Pattern.fits (p : Pattern) (w : Word) : Bool := w &&& p.mask == p.value

def initPattern : Pattern := ⟨0xFFFFFFFF, 0x10000000⟩
def clearPattern : Pattern := ⟨0xFFFFFFFF, 0x20000000⟩
def setcolorPattern : Pattern := ⟨0xFFFF00FF, 0x30000000⟩
def putcatPattern : Pattern := ⟨0xF0000000, 0x40000000⟩
def putcPattern : Pattern := ⟨0xFFFFFF00, 0x50000000⟩
def setcurPattern : Pattern := ⟨0xF000FFFF, 0x60000000⟩
def kpollPattern : Pattern := ⟨0xFFFFFFFF, 0x70000000⟩

/-- Why a word spells no command (30_encoding.md R76); the block raises ILLEGAL for either. -/
inductive Reject where
  /-- OP is 0x0 or 0x8..0xF. -/
  | reservedOp (op : BitVec 4)
  /-- OP names a command, and a field that command does not use is not zero. -/
  | reservedField (op : BitVec 4)
  deriving DecidableEq, Repr

/-- The name of a rejection, by the word's OP (30_encoding.md R73, R76). -/
def rejectionOf (w : Word) : Reject :=
  if 1 ≤ (opField w).toNat ∧ (opField w).toNat ≤ 7 then .reservedField (opField w) else .reservedOp (opField w)

/-- Decoding (30_encoding.md R75): the one command whose pattern the word fits, with its operands (R72), or the name
of the rejection. Ranges of X and Y are not looked at. -/
def decode (w : Word) : Except Reject Instr :=
  if initPattern.fits w then .ok .init
  else if clearPattern.fits w then .ok .clear
  else if setcolorPattern.fits w then .ok (.setcolor (aField w))
  else if putcatPattern.fits w then .ok (.putcat (cField w) (aField w) (xField w) (yField w))
  else if putcPattern.fits w then .ok (.putc (cField w))
  else if setcurPattern.fits w then .ok (.setcur (xField w) (yField w))
  else if kpollPattern.fits w then .ok .kpoll
  else .error (rejectionOf w)

/-! ### The encoder (30_encoding.md R72, R73) -/

/-- The word with these fields: `OP || Y || X || A || C` (R7, R71, R72). -/
def commandWord (op : BitVec 4) (y : Row) (x : Col) (a c : Byte) : Word :=
  op ++ y ++ x ++ a ++ c

/-- The word of a command: its OP of R73, its operands in their fields, zero elsewhere. -/
def encode : Instr → Word
  | .init => commandWord 0x1 0 0 0 0
  | .clear => commandWord 0x2 0 0 0 0
  | .setcolor a => commandWord 0x3 0 0 a 0
  | .putcat c a x y => commandWord 0x4 y x a c
  | .putc c => commandWord 0x5 0 0 0 c
  | .setcur x y => commandWord 0x6 y x 0 0
  | .kpoll => commandWord 0x7 0 0 0 0

/-! ### The host's view of the opcode table -/

/-- The low `nbits` bits of `w` as a command word, the bits above them zero. -/
def tableWord (nbits w : Nat) : Word := BitVec.ofNat 32 (w % 2 ^ nbits)

/-- The command the decoder reads from a table row's bits; a command word is one 32-bit value with no byte order of
its own (30_encoding.md R70). -/
def decodeTableWord (nbits w : Nat) : Option Instr :=
  match decode (tableWord nbits w) with
  | .ok i => some i
  | .error _ => none

end Sys2Proof
end

