-- ==== Sys2Proof/WellFormed.lean ====
section
/-! DEFINITION. Which commands are well formed: coordinates in the legal range of 30_encoding.md R71, the host's duty
of 70_reset_and_hazards.md R186. The operands' widths are their types, so nothing else can be wrong with a command.
An ill-formed command still has a word and still executes: it raises COORD (30_encoding.md R75). -/

namespace Sys2Proof

/-- A pair of coordinates inside the grid: X < 80 and Y < 25. -/
def coordsLegal (x : Col) (y : Row) : Bool :=
  decide (x.toNat < Config.width) && decide (y.toNat < Config.height)

/-- The operands of `i` are in the legal ranges of R71. -/
def Instr.wellFormed : Instr → Bool
  | .init => true
  | .clear => true
  | .setcolor _ => true
  | .putcat _ _ x y => coordsLegal x y
  | .putc _ => true
  | .setcur x y => coordsLegal x y
  | .kpoll => true

end Sys2Proof
end

