-- ==== Sys2Proof/Machine/Operands.lean ====
section
/-! DEFINITION. What a command computes from its operands and the cursor: cell addresses, packed cells, attribute
bytes and the cursor's next place (20_memory.md R52, 40_console.md R100, R101). Coordinates are computed on natural
numbers (00_scope.md R7). -/

namespace Sys2Proof.Machine

/-- `idx(x, y) = y*WIDTH + x` (20_memory.md R52). -/
def cellIndex (x y : Nat) : Nat := y * Config.width + x

/-- `cell_addr(x, y) = FB_BASE + 2*idx(x, y)` (20_memory.md R52). -/
def cellAddr (x y : Nat) : Nat := indexAddr (cellIndex x y)

/-- `pack(c, a)`: the character in the low byte, the attribute in the high one (40_console.md R101). -/
def pack (c a : Byte) : CellWord := (a.setWidth 16 <<< 8) ||| c.setWidth 16

/-- `make_attr(fg, bg)`: the foreground in the low nibble, the background in the high one (40_console.md R101). -/
def makeAttr (fg bg : BitVec 4) : Byte := fg.setWidth 8 ||| (bg.setWidth 8 <<< 4)

/-- The row after `row`, the last one followed by row 0: no scroll (40_console.md R100, R109). -/
def nextRow (row : Nat) : Nat := if row + 1 = Config.height then 0 else row + 1

/-- `advance(col, row)`: the next cell of the row, or column 0 of the next row (40_console.md R100). -/
def advance (col row : Nat) : Nat × Nat :=
  if col + 1 = Config.width then (0, nextRow row) else (col + 1, row)

end Sys2Proof.Machine
end

