-- ==== Sys2Proof/Machine/Ops.lean ====
section
/-! DEFINITION. The named operations over the state that the meanings are written with: registers, framebuffer writes,
port reads, raising a fault, reset, and taking the next command of the run. -/

namespace Sys2Proof.Machine

/-! ### Registers -/

/-- Write the cursor and mark it written (10_state.md R25). -/
def State.setCursor (s : State) (x : Col) (y : Row) : State :=
  { s with col := x, row := y, curValid := true }

/-- Write the attribute and mark it written (10_state.md R25). -/
def State.setAttr (s : State) (a : Byte) : State :=
  { s with attr := a, attrValid := true }

/-- Write the keyboard driver's state (10_state.md R35). -/
def State.setKbd (s : State) (k : KbdState) : State :=
  { s with kbdState := k }

/-- The address of the cell at the cursor. -/
def State.cursorAddr (s : State) : Nat := cellAddr s.col.toNat s.row.toNat

/-- The cursor moved on by one cell (40_console.md R100). -/
def State.advanceCursor (s : State) : State :=
  s.setCursor (BitVec.ofNat 7 (advance s.col.toNat s.row.toNat).1) (BitVec.ofNat 5 (advance s.col.toNat s.row.toNat).2)

/-- The cursor at the start of the next row (40_console.md R109). -/
def State.newLine (s : State) : State :=
  s.setCursor 0 (BitVec.ofNat 5 (nextRow s.row.toNat))

/-! ### Framebuffer and ports, each access recorded in the history -/

/-- `MemWrite(addr, 2, v)` (00_scope.md R8, 20_memory.md R53). -/
def State.memWrite (s : State) (addr : Nat) (v : CellWord) : State :=
  { s with mem := writeCell s.mem addr v, history := s.history ++ [.memWrite addr v] }

/-- The events of a repaint, in ascending index order (20_memory.md R62). -/
def fillEvents (v : CellWord) : List Event :=
  (List.range Config.cells).map fun i => .memWrite (indexAddr i) v

/-- The repaint of INIT and CLEAR: `MemWrite(FB_BASE + 2*i, 2, v)` for every i, ascending (40_console.md R102, R104). -/
def State.repaint (s : State) (v : CellWord) : State :=
  { s with mem := fillCells s.mem v, history := s.history ++ fillEvents v }

/-- The byte the environment answers to the next read of `port`: the script's next byte, or a free value when the
script is at its end (20_memory.md R58; log entry 4). -/
def State.portByte (s : State) (port : Port) : Byte :=
  match s.portScript with
  | b :: _ => b
  | [] => Config.portByte port s.draws

/-- The state after `IoRead(port)`: the byte is used up and the event recorded (20_memory.md R58). -/
def State.afterRead (s : State) (port : Port) : State :=
  { s with
    portScript := s.portScript.tail
    draws := if s.portScript.isEmpty then s.draws + 1 else s.draws
    history := s.history ++ [.ioRead port (s.portByte port)] }

/-! ### Faults -/

/-- `raise Fault(code)` on the command word `w` (60_exceptions.md R152): the block keeps the state given, which is the
one before the command but for the port reads made, and is faulted from here on. -/
def State.raise (s : State) (code : FaultCode) (w : Word) : State :=
  { s with faulted := true, faultCode := code, faultWord := some w }

/-! ### Reset -/

/-- The reset event in any state (70_reset_and_hazards.md R180): every piece of block state at its reset value, the
table and the parameters as they are. A new run starts: nothing is issued yet and the history is empty (R181, R189).
The free values that follow are fresh ones. Log entry 10. -/
def State.powerOn (s : State) : State :=
  { State.reset with table := s.table, params := s.params, draws := s.draws, resets := s.resets + 1 }

/-! ### The run (10_state.md R26, 70_reset_and_hazards.md R189) -/

/-- A run's words and port script, given from outside, to be executed from the first word on. Log entry 1. -/
def State.loadRun (s : State) (words : List Word) (script : List Byte) : State :=
  { s with words := words, pos := 0, portScript := script }

/-- The word at the run's position. -/
def State.fetch (s : State) : Option Word := s.words[s.pos]?

/-- What the block does next. -/
inductive Issue where
  /-- It is faulted and executes nothing more (60_exceptions.md R152). -/
  | stuck
  /-- The host has issued every word of the run; the block waits (92_eei_decisions.md D20). -/
  | waiting
  /-- The word spells no command (30_encoding.md R76). -/
  | illegal (w : Word)
  /-- The word spells this command. -/
  | command (i : Instr)
  deriving DecidableEq, Repr

/-- The next word of the run, decoded. -/
def State.issue (s : State) : Issue :=
  if s.faulted then .stuck
  else match s.fetch with
    | none => .waiting
    | some w =>
      match decode w with
      | .error _ => .illegal w
      | .ok i => .command i

/-- The position after a command: one on, unless the command faulted (10_state.md R26). -/
def State.retire (s : State) : State :=
  if s.faulted then s else { s with pos := s.pos + 1 }

/-- `retire` inside an outcome. -/
def retireOutcome : Host.Outcome State Fault Refusal → Host.Outcome State Fault Refusal
  | .next s => .next s.retire
  | .fault r => .fault r
  | .refused r => .refused r

/-- `w` as the word the run's position points at, the list made long enough where it ends before. -/
def State.placeWord (s : State) (w : Word) : State :=
  { s with words := (s.words ++ List.replicate (s.pos + 1 - s.words.length) 0).set s.pos w }

/-! ### What a host reads (10_state.md R40) -/

/-- The byte a host sees at a framebuffer address: the one written last, or, where no command wrote one, whatever the
framebuffer held at reset, a free value (10_state.md R28; log entry 3). -/
def State.hostByte (s : State) (addr : Nat) : Byte :=
  (readByte s.mem addr).getD (Config.powerOnByte s.resets addr)

/-- The cell a host sees at column `x`, row `y` (10_state.md R29, 20_memory.md R53). -/
def State.hostCell (s : State) (x y : Nat) : CellWord :=
  s.hostByte (cellAddr x y + 1) ++ s.hostByte (cellAddr x y)

end Sys2Proof.Machine
end

