-- ==== Sys2Proof/Machine/Console.lean ====
section
/-! DEFINITION. The console commands INIT, CLEAR, SETCOLOR, PUTCAT, PUTC and SETCUR (40_console.md). -/

namespace Sys2Proof.Machine

/-- `LF_POLICY = NEWLINE and C = 0x0A`: rule R109 applies in the place of R108. -/
def State.breaksLine (s : State) (c : Byte) : Bool :=
  s.params.lfPolicy == .newline && c == Config.lineFeed

/-- `emit(c)`: PUTC of `c`, inside the command whose word is `w` (00_scope.md R8, 40_console.md R108, R109). -/
def State.emit (s : State) (w : Word) (c : Byte) : State :=
  if s.breaksLine c then
    if s.curValid then s.newLine else s.raise .uninit w
  else
    if s.consoleWritten then (s.memWrite s.cursorAddr (pack c s.attr)).advanceCursor
    else s.raise .uninit w

/-- INIT (40_console.md R102). -/
def execInit (s : State) : Host.Outcome State Fault Refusal :=
  .next (((s.setCursor 0 0).setAttr Config.defaultAttr).repaint (pack Config.fillChar Config.defaultAttr))

/-- The attribute CLEAR paints with, none where it would have to read an unwritten one (40_console.md R104). -/
def State.clearAttr (s : State) : Option Byte :=
  match s.params.clearFill with
  | .current => if s.attrValid then some s.attr else none
  | .default => some Config.defaultAttr

/-- CLEAR (40_console.md R104). -/
def execClear (s : State) : Host.Outcome State Fault Refusal :=
  .next (match s.clearAttr with
    | some a => (s.repaint (pack Config.fillChar a)).setCursor 0 0
    | none => s.raise .uninit (encode .clear))

/-- SETCOLOR (40_console.md R106). -/
def execSetcolor (a : Byte) (s : State) : Host.Outcome State Fault Refusal :=
  .next (s.setAttr a)

/-- PUTCAT (40_console.md R107). -/
def execPutcat (c a : Byte) (x : Col) (y : Row) (s : State) : Host.Outcome State Fault Refusal :=
  .next (if coordsLegal x y then s.memWrite (cellAddr x.toNat y.toNat) (pack c a)
    else s.raise .coord (encode (.putcat c a x y)))

/-- PUTC (40_console.md R108, R109). -/
def execPutc (c : Byte) (s : State) : Host.Outcome State Fault Refusal :=
  .next (s.emit (encode (.putc c)) c)

/-- SETCUR (40_console.md R110). -/
def execSetcur (x : Col) (y : Row) (s : State) : Host.Outcome State Fault Refusal :=
  .next (if coordsLegal x y then s.setCursor x y else s.raise .coord (encode (.setcur x y)))

end Sys2Proof.Machine
end

