-- ==== Sys2Proof/Machine/Keyboard.lean ====
section
/-! DEFINITION. The keyboard command KPOLL (41_keyboard.md). -/

namespace Sys2Proof.Machine

/-- OBF, bit 0 of a status byte: a scancode byte is waiting (10_state.md R36). -/
def dataReady (status : Byte) : Bool := status.getLsbD 0

/-- The dispatch of KPOLL once a byte is ready: the data read between Dispatch and Idle, then `emit` of the character
the byte decodes to, if any (41_keyboard.md R131). -/
def State.dispatchKey (s : State) (w : Word) : State :=
  let asked := s.setKbd .dispatch
  let read := (asked.afterRead Config.kbdDataPort).setKbd .idle
  match decodeSc s.table (asked.portByte Config.kbdDataPort) with
  | some c => read.emit w c
  | none => read

/-- KPOLL (41_keyboard.md R131, R132). -/
def execKpoll (s : State) : Host.Outcome State Fault Refusal :=
  let polled := s.afterRead Config.kbdStatusPort
  .next (if dataReady (s.portByte Config.kbdStatusPort) then polled.dispatchKey (encode .kpoll) else polled)

end Sys2Proof.Machine
end

