-- ==== Sys2Proof/Machine/Dispatch.lean ====
section
/-! DEFINITION. One arm per command. -/

namespace Sys2Proof.Machine

def exec (i : Instr) (s : State) : Host.Outcome State Fault Refusal :=
  match i with
  | .init => Sys2Proof.Machine.execInit s
  | .clear => Sys2Proof.Machine.execClear s
  | .setcolor a => Sys2Proof.Machine.execSetcolor a s
  | .putcat c a x y => Sys2Proof.Machine.execPutcat c a x y s
  | .putc c => Sys2Proof.Machine.execPutc c s
  | .setcur x y => Sys2Proof.Machine.execSetcur x y s
  | .kpoll => Sys2Proof.Machine.execKpoll s

end Sys2Proof.Machine
end

