-- ==== Sys2Proof/Machine/Step.lean ====
section
/-! DEFINITION. One step of the block: the next word of the run (10_state.md R26). -/

namespace Sys2Proof.Machine

/-- One step. A faulted block is stuck (60_exceptions.md R152); with no word left it waits, unchanged (log entry 1); a
word that spells no command raises ILLEGAL (30_encoding.md R76); any other word is executed (log entry 20). -/
def step (s : State) : Host.Outcome State Fault Refusal :=
  match s.issue with
  | .stuck => .fault (.stuck s.faultCode)
  | .waiting => .next s
  | .illegal w => .next (s.raise .illegal w)
  | .command i => retireOutcome (exec i s)

/-- The state with a table row's word as the next one the host issues (log entry 1). -/
def State.withFetchWord (s : State) (nbits w : Nat) : State :=
  s.placeWord (tableWord nbits w)

end Sys2Proof.Machine
end

