-- ==== Sys2Proof/Machine/Assembler.lean ====
section
/-! DEFINITION. The host's assembler: the statements of 30_encoding.md R78, the ATTR helper (R79), the pseudo-commands
WRITE, WRITESTR and WRITESTRAT (R80-R83), and the lines they are written as. It is no part of the block: it turns text
into the command words a run is made of. Conventions of the text that R78 leaves open: log entry 14. -/

namespace Sys2Proof.Machine

/-! ### Statements and their words -/

/-- A statement of R78 or a pseudo-command of R80; a numeric operand is any natural number until it is checked. -/
inductive AsmStmt where
  | init
  | clear
  | setcolor (a : Nat)
  | putcat (c a x y : Nat)
  | putc (c : Nat)
  | setcur (x y : Nat)
  | kpoll
  /-- WRITE (R81). -/
  | write (bytes : List Byte)
  /-- WRITESTR (R82). -/
  | writestr (bytes : List Byte)
  /-- WRITESTRAT (R83). -/
  | writestrat (bytes : List Byte) (x y : Nat)
  /-- `.word`, a raw command word (95_test_vectors.md, Program 6; log entry 14). -/
  | word (w : Nat)
  deriving DecidableEq, Repr

/-- The ATTR helper (R79): refused where a nibble does not hold its operand. -/
def attrOperand (fg bg : Nat) : Option Nat :=
  if fg ≤ 15 ∧ bg ≤ 15 then some (makeAttr (BitVec.ofNat 4 fg) (BitVec.ofNat 4 bg)).toNat else none

/-- The bytes before the first NUL: the `strlen` contract of R82. -/
def untilNul (bytes : List Byte) : List Byte := bytes.takeWhile (· != 0)

/-- The commands of SETCUR, refused where an operand does not fit its field (R78). -/
def setcurCommands (x y : Nat) : Option (List Instr) :=
  if x ≤ 127 ∧ y ≤ 31 then some [.setcur (BitVec.ofNat 7 x) (BitVec.ofNat 5 y)] else none

/-- The commands of WRITE: PUTC of each byte in order (R81). -/
def writeCommands (bytes : List Byte) : List Instr := bytes.map .putc

/-- The commands a statement stands for, none where the assembler refuses an operand that does not fit its field
(R78); X up to 127 and Y up to 31 are accepted. A raw word stands for what it decodes to, if anything. -/
def AsmStmt.commands : AsmStmt → Option (List Instr)
  | .init => some [.init]
  | .clear => some [.clear]
  | .setcolor a => if a ≤ 255 then some [.setcolor (BitVec.ofNat 8 a)] else none
  | .putcat c a x y =>
    if c ≤ 255 ∧ a ≤ 255 ∧ x ≤ 127 ∧ y ≤ 31 then
      some [.putcat (BitVec.ofNat 8 c) (BitVec.ofNat 8 a) (BitVec.ofNat 7 x) (BitVec.ofNat 5 y)]
    else none
  | .putc c => if c ≤ 255 then some [.putc (BitVec.ofNat 8 c)] else none
  | .setcur x y => setcurCommands x y
  | .kpoll => some [.kpoll]
  | .write bytes => some (writeCommands bytes)
  | .writestr bytes => some (writeCommands (untilNul bytes))
  | .writestrat bytes x y => (setcurCommands x y).map (· ++ writeCommands (untilNul bytes))
  | .word w => (decodeTableWord 32 w).map ([·])

/-- The words a statement assembles to. A raw word is taken as it is, whether or not it spells a command. -/
def AsmStmt.assemble : AsmStmt → Option (List Word)
  | .word w => if w < 2 ^ 32 then some [BitVec.ofNat 32 w] else none
  | st => st.commands.map (·.map encode)

/-! ### Lines of text (R78) -/

/-- The value of a digit of the base, 10 or 16. -/
def digitValue (base : Nat) (c : Char) : Option Nat :=
  if '0' ≤ c ∧ c ≤ '9' then some (c.toNat - 48)
  else if base = 16 ∧ 'a' ≤ c ∧ c ≤ 'f' then some (c.toNat - 87)
  else if base = 16 ∧ 'A' ≤ c ∧ c ≤ 'F' then some (c.toNat - 55)
  else none

/-- Read digits as long as there are any. -/
def readDigits (base acc : Nat) : List Char → Nat × List Char
  | [] => (acc, [])
  | c :: rest =>
    match digitValue base c with
    | some d => readDigits base (acc * base + d) rest
    | none => (acc, c :: rest)

/-- A number, decimal or `0x` hexadecimal. -/
def readNumber : List Char → Option (Nat × List Char)
  | '0' :: 'x' :: c :: rest => (digitValue 16 c).map fun d => readDigits 16 d rest
  | c :: rest => (digitValue 10 c).map fun d => readDigits 10 d rest
  | [] => none

/-- The byte of a one-letter escape (R78). -/
def escapeByte (c : Char) : Option Byte :=
  if c = 'n' then some 0x0A
  else if c = 't' then some 0x09
  else if c = '\\' then some 0x5C
  else if c = '\'' then some 0x27
  else if c = '0' then some 0x00
  else none

/-- The byte of `\xHH`. -/
def hexByte (h l : Char) : Option Byte :=
  match digitValue 16 h, digitValue 16 l with
  | some a, some b => some (BitVec.ofNat 8 (a * 16 + b))
  | _, _ => none

/-- The ASCII code of a character (00_scope.md R7); refused above 0x7F. -/
def asciiByte (c : Char) : Option Byte :=
  if c.toNat < 128 then some (BitVec.ofNat 8 c.toNat) else none

/-- Quoted characters up to the closing quote `q`. -/
def readQuoted (q : Char) : List Char → Option (List Byte × List Char)
  | [] => none
  | '\\' :: 'x' :: h :: l :: rest =>
    match hexByte h l, readQuoted q rest with
    | some b, some (bs, rest') => some (b :: bs, rest')
    | _, _ => none
  | '\\' :: c :: rest =>
    match escapeByte c, readQuoted q rest with
    | some b, some (bs, rest') => some (b :: bs, rest')
    | _, _ => none
  | c :: rest =>
    if c = q then some ([], rest)
    else match asciiByte c, readQuoted q rest with
      | some b, some (bs, rest') => some (b :: bs, rest')
      | _, _ => none

/-- Leave out leading blanks. -/
def skipBlanks (cs : List Char) : List Char := cs.dropWhile fun c => c == ' ' || c == '\t'

/-- Read one given character, blanks before it left out. -/
def readMark (mark : Char) (cs : List Char) : Option (List Char) :=
  match skipBlanks cs with
  | c :: rest => if c = mark then some rest else none
  | [] => none

/-- An operand: a number, a quoted character, or `ATTR(fg, bg)` (R78, R79). DESIGN CHOICE, log entry 14: a quoted
character is taken at every operand, where R78 names it for a character operand and is silent on the others. -/
def readOperand (cs : List Char) : Option (Nat × List Char) :=
  match skipBlanks cs with
  | '\'' :: rest =>
    match readQuoted '\'' rest with
    | some ([b], rest') => some (b.toNat, rest')
    | _ => none
  | 'A' :: 'T' :: 'T' :: 'R' :: rest => do
    let afterOpen ← readMark '(' rest
    let (fg, afterFg) ← readNumber (skipBlanks afterOpen)
    let afterComma ← readMark ',' afterFg
    let (bg, afterBg) ← readNumber (skipBlanks afterComma)
    let rest' ← readMark ')' afterBg
    let a ← attrOperand fg bg
    some (a, rest')
  | cs' => readNumber cs'

/-- Operands separated by commas, at most `fuel` of them. -/
def readOperands : Nat → List Char → Option (List Nat × List Char)
  | 0, _ => none
  | fuel + 1, cs => do
    let (n, rest) ← readOperand cs
    match readMark ',' rest with
    | some rest' => do
      let (ns, rest'') ← readOperands fuel rest'
      some (n :: ns, rest'')
    | none => some ([n], rest)

/-- A string operand. -/
def readString (cs : List Char) : Option (List Byte × List Char) :=
  (readMark '"' cs).bind (readQuoted '"')

/-- Nothing but blanks and a comment is left of the line. -/
def atLineEnd (cs : List Char) : Bool :=
  match skipBlanks cs with
  | [] => true
  | c :: _ => c == ';'

/-- A number as a byte, refused above 255. -/
def byteOf (n : Nat) : Option Byte := if n ≤ 255 then some (BitVec.ofNat 8 n) else none

/-- The statement of a mnemonic with numeric operands. -/
def numericStmt (mnemonic : String) (ops : List Nat) : Option AsmStmt :=
  match ops with
  | [a] =>
    if mnemonic = "SETCOLOR" then some (.setcolor a)
    else if mnemonic = "PUTC" then some (.putc a)
    else if mnemonic = ".word" then some (.word a)
    else none
  | [x, y] => if mnemonic = "SETCUR" then some (.setcur x y) else none
  | [c, a, x, y] => if mnemonic = "PUTCAT" then some (.putcat c a x y) else none
  | _ => none

/-- The statement of a mnemonic and the text after it. DESIGN CHOICE, log entry 14: WRITE of no byte is written as the
empty string, and WRITE with no operand is refused; R81 gives the list of byte values no text form. -/
def readStmt (mnemonic : String) (cs : List Char) : Option AsmStmt :=
  if mnemonic = "INIT" then (if atLineEnd cs then some .init else none)
  else if mnemonic = "CLEAR" then (if atLineEnd cs then some .clear else none)
  else if mnemonic = "KPOLL" then (if atLineEnd cs then some .kpoll else none)
  else if mnemonic = "WRITESTR" then do
    let (bytes, rest) ← readString cs
    if atLineEnd rest then some (.writestr bytes) else none
  else if mnemonic = "WRITESTRAT" then do
    let (bytes, rest) ← readString cs
    let afterComma ← readMark ',' rest
    let (ops, rest') ← readOperands afterComma.length afterComma
    match ops with
    | [x, y] => if atLineEnd rest' then some (.writestrat bytes x y) else none
    | _ => none
  else if mnemonic = "WRITE" then
    match readString cs with
    | some (bytes, rest) => if atLineEnd rest then some (.write bytes) else none
    | none => do
      let (ops, rest) ← readOperands cs.length cs
      let bytes ← ops.mapM byteOf
      if atLineEnd rest then some (.write bytes) else none
  else do
    let (ops, rest) ← readOperands cs.length cs
    if atLineEnd rest then numericStmt mnemonic ops else none

/-- A character of a mnemonic. -/
def mnemonicChar (c : Char) : Bool := c.isAlpha || c == '.'

/-- The words of one line of assembler text: none where it is refused, no word where it is blank or a comment. DESIGN
CHOICE, log entry 14: blanks before the mnemonic are left out, and none is needed between it and its first operand; R78
gives no separator. -/
def assembleLine (line : List Char) : Option (List Word) :=
  if atLineEnd line then some []
  else
    let cs := skipBlanks line
    (readStmt (String.ofList (cs.takeWhile mnemonicChar)) (cs.dropWhile mnemonicChar)).bind AsmStmt.assemble

/-- The words of a text, line by line. -/
def assemble (lines : List (List Char)) : Option (List Word) :=
  (lines.mapM assembleLine).map List.flatten

end Sys2Proof.Machine
end

