-- ==== Sys2Proof/Safety.lean ====
section
/-! DEFINITION. What claims say of a state and of a run: the invariants of the block, and when a run has completed. -/

namespace Sys2Proof.Machine

/-- The cursor invariant (10_state.md R23): inside the grid whenever the cursor has been written. -/
def CursorInGrid (s : State) : Prop :=
  s.curValid = true → s.col.toNat < Config.width ∧ s.row.toNat < Config.height

/-- Only framebuffer bytes have been written (20_memory.md R51). -/
def MemInWindow (m : Memory) : Prop :=
  ∀ p ∈ m, Config.fbBase ≤ p.1 ∧ p.1 < Config.fbBase + Config.fbBytes

/-- The memory that the framebuffer writes among these events leave, in order, on top of `m`. -/
def replay (m : Memory) : List Event → Memory
  | [] => m
  | .ioRead _ _ :: rest => replay m rest
  | .memWrite addr v :: rest => replay (writeCell m addr v) rest

/-- The framebuffer is what the writes recorded in the history made it, and nothing else (20_memory.md R60,
70_reset_and_hazards.md R189). -/
def MemFollowsHistory (s : State) : Prop := s.mem = replay [] s.history

/-- An access the block may make: a whole, aligned cell of the window, or one of the two ports (20_memory.md R50, R51,
R54, R55, R59). -/
def Event.legal : Event → Prop
  | .ioRead port _ => port = Config.kbdStatusPort ∨ port = Config.kbdDataPort
  | .memWrite addr _ => ∃ i, i < Config.cells ∧ addr = indexAddr i

/-- Every access recorded is one the block may make. -/
def HistoryLegal (s : State) : Prop := ∀ e ∈ s.history, e.legal

/-- The fault bit, the fault code and the word kept agree (10_state.md R31, 60_exceptions.md R152). -/
def FaultCoherent (s : State) : Prop :=
  (s.faulted = true ↔ s.faultCode ≠ .none) ∧ (s.faulted = true ↔ s.faultWord.isSome = true)

/-- The invariant of the block between commands. -/
structure Inv (s : State) : Prop where
  cursor : CursorInGrid s
  memCanonical : s.mem.wf
  memInWindow : MemInWindow s.mem
  memFollows : MemFollowsHistory s
  historyLegal : HistoryLegal s
  kbdIdle : s.kbdState = .idle
  fault : FaultCoherent s

/-- Every byte of the framebuffer is one a command wrote (10_state.md R30, the stronger reading). -/
def AllCellsWritten (s : State) : Prop :=
  ∀ addr, Config.fbBase ≤ addr → addr < Config.fbBase + Config.fbBytes → (readByte s.mem addr).isSome = true

/-- Both console registers have been written, so no command raises UNINIT (70_reset_and_hazards.md R182). -/
def ConsoleReady (s : State) : Prop := s.curValid = true ∧ s.attrValid = true

/-- The run has completed (70_reset_and_hazards.md R189): every word executed, no fault. -/
def Completed (s : State) : Prop := s.words.length ≤ s.pos ∧ s.faulted = false

/-- `n` steps of the machine, stopping where it stops. -/
def runFor (n : Nat) (s : State) : Host.Outcome State Fault Refusal := Host.Core.run Sys2Proof.core n s

/-- The byte the next KPOLL reads from the status port (41_keyboard.md R131). -/
def State.statusByte (s : State) : Byte := s.portByte Config.kbdStatusPort

/-- The byte it then reads from the data port, if it does. -/
def State.dataByte (s : State) : Byte := (s.afterRead Config.kbdStatusPort).portByte Config.kbdDataPort

/-- The state with both bytes read and nothing else done. -/
def State.pollRead (s : State) : State := (s.afterRead Config.kbdStatusPort).afterRead Config.kbdDataPort

/-- The block's linear position `row*80 + col` (40_console.md R114). -/
def State.linear (s : State) : Nat := cellIndex s.col.toNat s.row.toNat

end Sys2Proof.Machine
end

