-- ==== Sys2Proof/Certificates/Slice0/Obligations.lean ====
section
/-! DEFINITION. The statements for the provers. Addresses and cells are written out from the spec's formulas: the cell
at column x, row y lies at 0xB8000 + 2*(y*80 + x), character first. -/

open Sys2Proof Sys2Proof.Machine

/-! ### Encoding -/

/-- Words of 95_test_vectors.md section 2.1. -/
def Obligations.SpecWordsDecode : Prop :=
  decode 0x10000000 = .ok .init ∧ decode 0x20000000 = .ok .clear ∧
  decode 0x30001F00 = .ok (.setcolor 0x1F) ∧ decode 0x4C4F0F58 = .ok (.putcat 0x58 0x0F 79 24) ∧
  decode 0x4FFFFFFF = .ok (.putcat 0xFF 0xFF 127 31) ∧ decode 0x500000FF = .ok (.putc 0xFF) ∧
  decode 0x6C4F0000 = .ok (.setcur 79 24) ∧ decode 0x70000000 = .ok .kpoll ∧
  decode 0x00000000 = .error (.reservedOp 0) ∧ decode 0x80000000 = .error (.reservedOp 8) ∧
  decode 0x10000001 = .error (.reservedField 1) ∧ decode 0x50000F48 = .error (.reservedField 5)

/-- No operand bit is dropped: the word of a command decodes to that command, at every operand. -/
def Obligations.DecodeOfEncode : Prop :=
  ∀ i : Instr, decode (encode i) = .ok i

/-- Each command has one word: a word that decodes is the word of what it decodes to. -/
def Obligations.EncodeOfDecode : Prop :=
  ∀ (w : Word) (i : Instr), decode w = .ok i → encode i = w

/-- The words of the assembler table of 30_encoding.md section 3. -/
def Obligations.EncodedWordArithmetic : Prop :=
  (encode .init).toNat = 0x10000000 ∧ (encode .clear).toNat = 0x20000000 ∧
  (encode .kpoll).toNat = 0x70000000 ∧
  (∀ a, (encode (.setcolor a)).toNat = 0x30000000 + a.toNat * 2 ^ 8) ∧
  (∀ c, (encode (.putc c)).toNat = 0x50000000 + c.toNat) ∧
  (∀ x y, (encode (.setcur x y)).toNat = 0x60000000 + y.toNat * 2 ^ 23 + x.toNat * 2 ^ 16) ∧
  (∀ c a x y, (encode (.putcat c a x y)).toNat
    = 0x40000000 + y.toNat * 2 ^ 23 + x.toNat * 2 ^ 16 + a.toNat * 2 ^ 8 + c.toNat)

/-- R74 and R75: a word spells the command whose mask and match it meets, with its fields as operands, and a word that
meets none spells none. -/
def Obligations.WordsDecodeByMaskAndMatch : Prop :=
  ∀ w : Word,
    (w &&& 0xFFFFFFFF = 0x10000000 → decode w = .ok .init) ∧
    (w &&& 0xFFFFFFFF = 0x20000000 → decode w = .ok .clear) ∧
    (w &&& 0xFFFF00FF = 0x30000000 → decode w = .ok (.setcolor (w.extractLsb' 8 8))) ∧
    (w &&& 0xF0000000 = 0x40000000 →
      decode w = .ok (.putcat (w.extractLsb' 0 8) (w.extractLsb' 8 8) (w.extractLsb' 16 7) (w.extractLsb' 23 5))) ∧
    (w &&& 0xFFFFFF00 = 0x50000000 → decode w = .ok (.putc (w.extractLsb' 0 8))) ∧
    (w &&& 0xF000FFFF = 0x60000000 → decode w = .ok (.setcur (w.extractLsb' 16 7) (w.extractLsb' 23 5))) ∧
    (w &&& 0xFFFFFFFF = 0x70000000 → decode w = .ok .kpoll) ∧
    (w &&& 0xFFFFFFFF ≠ 0x10000000 → w &&& 0xFFFFFFFF ≠ 0x20000000 → w &&& 0xFFFF00FF ≠ 0x30000000 →
      w &&& 0xF0000000 ≠ 0x40000000 → w &&& 0xFFFFFF00 ≠ 0x50000000 → w &&& 0xF000FFFF ≠ 0x60000000 →
      w &&& 0xFFFFFFFF ≠ 0x70000000 → ∃ r, decode w = .error r)

/-! ### Steps and runs -/

/-- A step of a block that is not faulted runs the command its next word decodes to: the outcome is that of the
command, the position moved on unless the command faulted. -/
def Obligations.StepRunsDecodedCommand : Prop :=
  ∀ (s : State) (w : Word) (i : Instr), s.faulted = false → s.words[s.pos]? = some w → decode w = .ok i →
    step s = match exec i s with
      | .next t => .next (if t.faulted then t else { t with pos := t.pos + 1 })
      | .fault r => .fault r
      | .refused r => .refused r

/-- R155: a word that decodes to no command faults with ILLEGAL, whatever the state, and changes nothing else. -/
def Obligations.IllegalWordFaults : Prop :=
  ∀ (s : State) (w : Word) (r : Reject), s.faulted = false → s.words[s.pos]? = some w → decode w = .error r →
    step s = .next { s with faulted := true, faultCode := .illegal, faultWord := some w }

/-- A faulted block executes no further command, whatever the host issues: it is stuck. -/
def Obligations.FaultedBlockIsStuck : Prop :=
  ∀ s : State, s.faulted = true → ∀ (words : List Word) (pos : Nat),
    step { s with words := words, pos := pos } = .fault (.stuck s.faultCode)

/-- The run's position is moved on by one after each word that does not fault and stays at one that does; with no word
left, a run that has completed stays as it is (the last clause is the model's choice, log entry 1). -/
def Obligations.PositionFollowsCommands : Prop :=
  (∀ s t : State, step s = .next t →
    (s.pos < s.words.length → t.faulted = false → t.pos = s.pos + 1) ∧
    (s.pos < s.words.length → t.faulted = true → t.pos = s.pos)) ∧
  (∀ s : State, Completed s → step s = .next s)

/-- The word `withFetchWord` places is the one the next step fetches, in every state. -/
def Obligations.PlacedWordIsFetched : Prop :=
  ∀ (s : State) (nbits w : Nat), (s.withFetchWord nbits w).fetch = some (BitVec.ofNat 32 (w % 2 ^ nbits))

/-! ### Reset and the invariant -/

/-- R180: reset, in any state, leaves the cursor and the attribute unwritten, no framebuffer byte written, the driver
idle, no fault, and the table as it was; and no step leaves the faulted state. -/
def Obligations.ResetLeavesBlockUnwritten : Prop :=
  (∀ s : State,
    s.powerOn.curValid = false ∧ s.powerOn.attrValid = false ∧ s.powerOn.kbdState = .idle ∧
    s.powerOn.faulted = false ∧ s.powerOn.faultCode = .none ∧ s.powerOn.table = s.table ∧
    ∀ addr, readByte s.powerOn.mem addr = none) ∧
  State.reset.curValid = false ∧ State.reset.attrValid = false ∧ State.reset.kbdState = .idle ∧
  State.reset.faulted = false ∧ State.reset.faultCode = .none ∧ TableOk State.reset.params State.reset.table ∧
  (∀ addr, readByte State.reset.mem addr = none) ∧
  (∀ s t : State, s.faulted = true → step s ≠ .next t)

/-- The invariant holds after reset, and after a reset in any state. -/
def Obligations.ResetMeetsInvariant : Prop :=
  Inv State.reset ∧ ∀ s : State, Inv s.powerOn

/-- Every step keeps the invariant: the cursor in the grid, the memory canonical, inside the window and exactly what
the recorded writes made it, every access recorded one the block may make, the driver idle, the fault state coherent. -/
def Obligations.StepKeepsInvariant : Prop :=
  ∀ s t : State, Inv s → step s = .next t → Inv t

/-- Once both console registers are written they stay written, and no later step raises UNINIT. -/
def Obligations.ReadyConsoleNeverUninit : Prop :=
  ∀ s t : State, ConsoleReady s → step s = .next t →
    ConsoleReady t ∧ (s.faultCode = .none → t.faultCode ≠ .uninit)

/-- INIT, and a CLEAR that does not fault, leave every framebuffer byte written, and every later step keeps it so. -/
def Obligations.PaintedFramebufferStaysWritten : Prop :=
  (∀ s t : State, exec .init s = .next t → AllCellsWritten t) ∧
  (∀ s t : State, s.faulted = false → exec .clear s = .next t → t.faulted = false → AllCellsWritten t) ∧
  (∀ s t : State, AllCellsWritten s → step s = .next t → AllCellsWritten t)

/-! ### Console commands -/

/-- R102: INIT, its word and what it does in every state. -/
def Obligations.InitResult : Prop :=
  (encode .init).toNat = 0x10000000 ∧
  ∀ s : State, ∃ t, exec .init s = .next t ∧
    (∀ i, i < 2000 → readByte t.mem (0xB8000 + 2 * i) = some 0x20 ∧ readByte t.mem (0xB8000 + 2 * i + 1) = some 0x0F) ∧
    (∀ addr, addr < 0xB8000 ∨ 0xB8FA0 ≤ addr → readByte t.mem addr = readByte s.mem addr) ∧
    t = { s with
      col := 0, row := 0, curValid := true, attr := 0x0F, attrValid := true, mem := t.mem
      history := s.history ++ (List.range 2000).map fun i => .memWrite (0xB8000 + 2 * i) 0x0F20 }

/-- R104: CLEAR, its word, what it does under both values of CLEAR_FILL, and its UNINIT fault; right after INIT or after
another CLEAR it leaves the state as it is. -/
def Obligations.ClearResult : Prop :=
  (encode .clear).toNat = 0x20000000 ∧
  (∀ s : State, s.params.clearFill = .current → s.attrValid = false →
    exec .clear s = .next { s with faulted := true, faultCode := .uninit, faultWord := some 0x20000000 }) ∧
  (∀ (s : State) (a : Byte),
    (s.params.clearFill = .current ∧ s.attrValid = true ∧ a = s.attr) ∨ (s.params.clearFill = .default ∧ a = 0x0F) →
    ∃ t, exec .clear s = .next t ∧
      (∀ i, i < 2000 → readByte t.mem (0xB8000 + 2 * i) = some 0x20 ∧ readByte t.mem (0xB8000 + 2 * i + 1) = some a) ∧
      (∀ addr, addr < 0xB8000 ∨ 0xB8FA0 ≤ addr → readByte t.mem addr = readByte s.mem addr) ∧
      t = { s with
        col := 0, row := 0, curValid := true, mem := t.mem
        history := s.history ++ (List.range 2000).map fun i => .memWrite (0xB8000 + 2 * i) (a ++ (0x20 : Byte)) }) ∧
  (∀ s t : State, s.mem.wf → s.faulted = false → t.faulted = false →
    exec .init s = .next t ∨ exec .clear s = .next t →
    ∃ u, exec .clear t = .next u ∧ u = { t with history := u.history })

/-- R105: a second CLEAR leaves the framebuffer byte for byte as the first did, the cursor at (0,0) after both; the two
record the same accesses, and the attribute is not written. -/
def Obligations.ClearIsIdempotent : Prop :=
  ∀ s : State, s.mem.wf → (s.params.clearFill = .current → s.attrValid = true) →
    ∃ t u, exec .clear s = .next t ∧ exec .clear t = .next u ∧ u.mem = t.mem ∧
      t.col = 0 ∧ t.row = 0 ∧ u.col = 0 ∧ u.row = 0 ∧ t.attr = s.attr ∧ u.attr = s.attr ∧
      ∃ es, t.history = s.history ++ es ∧ u.history = t.history ++ es

/-- R106: SETCOLOR, its word and what it does in every state. -/
def Obligations.SetcolorResult : Prop :=
  ∀ (s : State) (a : Byte), (encode (.setcolor a)).toNat = 0x30000000 + a.toNat * 2 ^ 8 ∧
    exec (.setcolor a) s = .next { s with attr := a, attrValid := true }

/-- R107: PUTCAT, its word, and what it does in range and out of range. -/
def Obligations.PutcatResult : Prop :=
  ∀ (s : State) (c a : Byte) (x : Col) (y : Row),
    (encode (.putcat c a x y)).toNat
      = 0x40000000 + y.toNat * 2 ^ 23 + x.toNat * 2 ^ 16 + a.toNat * 2 ^ 8 + c.toNat ∧
    (x.toNat < 80 → y.toNat < 25 → ∃ t, exec (.putcat c a x y) s = .next t ∧
      (∀ addr, readByte t.mem addr =
        if addr = 0xB8000 + 2 * (y.toNat * 80 + x.toNat) then some c
        else if addr = 0xB8000 + 2 * (y.toNat * 80 + x.toNat) + 1 then some a
        else readByte s.mem addr) ∧
      t = { s with
        mem := t.mem
        history := s.history ++ [.memWrite (0xB8000 + 2 * (y.toNat * 80 + x.toNat)) (a ++ c)] }) ∧
    (80 ≤ x.toNat ∨ 25 ≤ y.toNat → exec (.putcat c a x y) s =
      .next { s with faulted := true, faultCode := .coord, faultWord := some (encode (.putcat c a x y)) })

/-- R108: PUTC of any byte that is not a line break of the NEWLINE policy, its word, and its UNINIT fault. The cursor is in the
grid, which the invariant gives. -/
def Obligations.PutcResult : Prop :=
  ∀ (s : State) (c : Byte), s.params.lfPolicy = .glyph ∨ c ≠ 0x0A →
    (encode (.putc c)).toNat = 0x50000000 + c.toNat ∧
    (s.curValid = false ∨ s.attrValid = false → exec (.putc c) s =
      .next { s with faulted := true, faultCode := .uninit, faultWord := some (encode (.putc c)) }) ∧
    (s.curValid = true → s.attrValid = true → s.col.toNat < 80 → s.row.toNat < 25 →
      ∃ t, exec (.putc c) s = .next t ∧
        (∀ addr, readByte t.mem addr =
          if addr = 0xB8000 + 2 * (s.row.toNat * 80 + s.col.toNat) then some c
          else if addr = 0xB8000 + 2 * (s.row.toNat * 80 + s.col.toNat) + 1 then some s.attr
          else readByte s.mem addr) ∧
        (t.col.toNat, t.row.toNat) =
          (if s.col.toNat < 79 then (s.col.toNat + 1, s.row.toNat)
           else if s.row.toNat < 24 then (0, s.row.toNat + 1) else (0, 0)) ∧
        t = { s with
          col := t.col, row := t.row, mem := t.mem
          history := s.history ++ [.memWrite (0xB8000 + 2 * (s.row.toNat * 80 + s.col.toNat)) (s.attr ++ c)] })

/-- R109: PUTC of 0x0A under NEWLINE: the start of the next row, no cell written, the attribute not read. Under GLYPH,
and for any other byte, the byte is written as a glyph instead. -/
def Obligations.PutcNewlineResult : Prop :=
  (∀ s : State, s.params.lfPolicy = .newline →
    (s.curValid = false → exec (.putc 0x0A) s =
      .next { s with faulted := true, faultCode := .uninit, faultWord := some 0x5000000A }) ∧
    (s.curValid = true → s.row.toNat < 25 → ∃ r : Row, r.toNat = (if s.row.toNat = 24 then 0 else s.row.toNat + 1) ∧
      exec (.putc 0x0A) s = .next { s with col := 0, row := r })) ∧
  (∀ (s : State) (c : Byte), s.params.lfPolicy = .glyph ∨ c ≠ 0x0A → s.curValid = true → s.attrValid = true →
    ∃ t, exec (.putc c) s = .next t ∧
      readByte t.mem (0xB8000 + 2 * (s.row.toNat * 80 + s.col.toNat)) = some c)

/-- R110: SETCUR, its word, and what it does in range and out of range. -/
def Obligations.SetcurResult : Prop :=
  ∀ (s : State) (x : Col) (y : Row),
    (encode (.setcur x y)).toNat = 0x60000000 + y.toNat * 2 ^ 23 + x.toNat * 2 ^ 16 ∧
    (x.toNat < 80 → y.toNat < 25 → exec (.setcur x y) s = .next { s with col := x, row := y, curValid := true }) ∧
    (80 ≤ x.toNat ∨ 25 ≤ y.toNat → exec (.setcur x y) s =
      .next { s with faulted := true, faultCode := .coord, faultWord := some (encode (.setcur x y)) })

/-- R100: the cursor's next place, case by case and as one linear position. -/
def Obligations.CursorAdvance : Prop :=
  ∀ col row : Nat, col < 80 → row < 25 →
    (advance col row).1 < 80 ∧ (advance col row).2 < 25 ∧
    (col < 79 → advance col row = (col + 1, row)) ∧
    (col = 79 → row < 24 → advance col row = (0, row + 1)) ∧
    (col = 79 → row = 24 → advance col row = (0, 0)) ∧
    (advance col row).2 * 80 + (advance col row).1 = (row * 80 + col + 1) % 2000

/-- R101: cell packing and attribute making. -/
def Obligations.PackedFields : Prop :=
  (∀ c a : Byte, (pack c a).toNat = a.toNat * 256 + c.toNat ∧
    (pack c a).extractLsb' 0 8 = c ∧ (pack c a).extractLsb' 8 8 = a) ∧
  (∀ fg bg : BitVec 4, (makeAttr fg bg).toNat = bg.toNat * 16 + fg.toNat ∧
    (makeAttr fg bg).extractLsb' 0 4 = fg ∧ (makeAttr fg bg).extractLsb' 4 4 = bg)

/-- Cell addresses: row-major, inside the window, even, and each cell its own (20_memory.md section 1). -/
def Obligations.CellAddresses : Prop :=
  ∀ x y x' y' : Nat, x < 80 → y < 25 → x' < 80 → y' < 25 →
    cellAddr x y = 0xB8000 + 2 * (y * 80 + x) ∧ 0xB8000 ≤ cellAddr x y ∧ cellAddr x y + 1 < 0xB8FA0 ∧
    cellAddr x y % 2 = 0 ∧ (cellAddr x y = cellAddr x' y' → x = x' ∧ y = y')

/-! ### The keyboard -/

/-- The answer to a port read and what it leaves: the script's next byte while there is one, after that the free value
of the port and of the number of the draw (the model's form of the spec's draw, log entry 4); the event recorded either
way. -/
def Obligations.PortReadAnswers : Prop :=
  ∀ (s : State) (port : Port),
    (∀ b rest, s.portScript = b :: rest → s.portByte port = b ∧
      s.afterRead port = { s with portScript := rest, history := s.history ++ [.ioRead port b] }) ∧
    (s.portScript = [] → s.portByte port = Config.portByte port s.draws ∧
      s.afterRead port =
        { s with draws := s.draws + 1, history := s.history ++ [.ioRead port (s.portByte port)] })

/-- R130: the decoding function, for every table and every byte. -/
def Obligations.ScancodeDecoding : Prop :=
  ∀ (t : ScancodeTable) (b e : Byte), e = t[b.toNat % 128]'(Nat.mod_lt _ (Nat.succ_pos 127)) →
    (128 ≤ b.toNat → decodeSc t b = none) ∧
    (b.toNat < 128 → 1 ≤ e.toNat → e.toNat ≤ 127 → decodeSc t b = some e) ∧
    (b.toNat < 128 → e.toNat = 0 ∨ 128 ≤ e.toNat → decodeSc t b = none)

/-- R132: KPOLL with status bit 0 clear completes at once, having read the status port alone. -/
def Obligations.KpollWithoutData : Prop :=
  ∀ s : State, s.statusByte.getLsbD 0 = false →
    exec .kpoll s = .next { s with
      portScript := s.portScript.tail, draws := (s.afterRead 0x64).draws
      history := s.history ++ [.ioRead 0x64 s.statusByte] }

/-- R131: KPOLL, whole, and its word. Status bit 0 clear: the status read alone. Set: the data read too, the driver idle again, and,
if the byte decodes to a character, what PUTC of it does from there; where that faults the word kept is KPOLL's, and
where it does not the word kept is the one before. -/
def Obligations.KpollResult : Prop :=
  (encode .kpoll).toNat = 0x70000000 ∧
  ∀ s r : State,
    r = { s with
      kbdState := .idle
      portScript := s.portScript.drop 2, draws := s.pollRead.draws
      history := s.history ++ [.ioRead 0x64 s.statusByte, .ioRead 0x60 s.dataByte] } →
    (s.statusByte.getLsbD 0 = false → exec .kpoll s = .next { s with
      portScript := s.portScript.tail, draws := (s.afterRead 0x64).draws
      history := s.history ++ [.ioRead 0x64 s.statusByte] }) ∧
    (s.statusByte.getLsbD 0 = true → decodeSc s.table s.dataByte = none → exec .kpoll s = .next r) ∧
    (s.statusByte.getLsbD 0 = true → ∀ c, decodeSc s.table s.dataByte = some c →
      ∃ t u, exec .kpoll s = .next t ∧ exec (.putc c) r = .next u ∧ t = { u with faultWord := t.faultWord } ∧
        t.faultWord =
          if s.curValid = false ∨ (s.attrValid = false ∧ (s.params.lfPolicy = .glyph ∨ c ≠ 0x0A)) then some 0x70000000
          else s.faultWord)

/-- KPOLL with a byte that decodes to a character: both ports read in order, then the character written at the cursor
with the current attribute and the cursor moved on. -/
def Obligations.KpollForwardsCharacter : Prop :=
  ∀ (s : State) (c : Byte), s.statusByte.getLsbD 0 = true → decodeSc s.table s.dataByte = some c →
    s.params.lfPolicy = .glyph ∨ c ≠ 0x0A →
    s.curValid = true → s.attrValid = true → s.col.toNat < 80 → s.row.toNat < 25 →
      ∃ t, exec .kpoll s = .next t ∧
        (∀ addr, readByte t.mem addr =
          if addr = 0xB8000 + 2 * (s.row.toNat * 80 + s.col.toNat) then some c
          else if addr = 0xB8000 + 2 * (s.row.toNat * 80 + s.col.toNat) + 1 then some s.attr
          else readByte s.mem addr) ∧
        (t.col.toNat, t.row.toNat) =
          (if s.col.toNat < 79 then (s.col.toNat + 1, s.row.toNat)
           else if s.row.toNat < 24 then (0, s.row.toNat + 1) else (0, 0)) ∧
        t = { s with
          col := t.col, row := t.row, mem := t.mem, kbdState := .idle
          portScript := s.portScript.drop 2, draws := s.pollRead.draws
          history := s.history ++ [.ioRead 0x64 s.statusByte, .ioRead 0x60 s.dataByte,
            .memWrite (0xB8000 + 2 * (s.row.toNat * 80 + s.col.toNat)) (s.attr ++ c)] }

/-- KPOLL with a line feed under NEWLINE: both ports read, the cursor at the start of the next row, no cell written. -/
def Obligations.KpollForwardsNewline : Prop :=
  ∀ s : State, s.statusByte.getLsbD 0 = true → decodeSc s.table s.dataByte = some 0x0A →
    s.params.lfPolicy = .newline → s.curValid = true → s.row.toNat < 25 →
      ∃ r : Row, r.toNat = (if s.row.toNat = 24 then 0 else s.row.toNat + 1) ∧
        exec .kpoll s = .next { s with
          col := 0, row := r, kbdState := .idle
          portScript := s.portScript.drop 2, draws := s.pollRead.draws
          history := s.history ++ [.ioRead 0x64 s.statusByte, .ioRead 0x60 s.dataByte] }

/-- KPOLL with a character while the register it must read is unwritten: UNINIT, the two reads kept. -/
def Obligations.KpollFaultsUninit : Prop :=
  ∀ (s : State) (c : Byte), s.statusByte.getLsbD 0 = true → decodeSc s.table s.dataByte = some c →
    s.curValid = false ∨ (s.attrValid = false ∧ (s.params.lfPolicy = .glyph ∨ c ≠ 0x0A)) →
    exec .kpoll s = .next { s with
      kbdState := .idle, faulted := true, faultCode := .uninit, faultWord := some 0x70000000
      portScript := s.portScript.drop 2, draws := s.pollRead.draws
      history := s.history ++ [.ioRead 0x64 s.statusByte, .ioRead 0x60 s.dataByte] }

/-- R133: the round trip of a make code: with data m the entry is written at the cursor if it is positive, with data
m + 0x80 nothing is written and the cursor stays. -/
def Obligations.ScancodeRoundTrip : Prop :=
  ∀ (s : State) (m : MakeCode), s.statusByte.getLsbD 0 = true → s.params.lfPolicy = .glyph →
    s.curValid = true → s.attrValid = true → s.col.toNat < 80 → s.row.toNat < 25 →
    (s.dataByte.toNat = m.toNat → 0 < (scancode s.table m).toInt → ∃ t, exec .kpoll s = .next t ∧
      t.mem = writeCell s.mem (0xB8000 + 2 * (s.row.toNat * 80 + s.col.toNat)) (pack (scancode s.table m) s.attr) ∧
      (t.col.toNat, t.row.toNat) = advance s.col.toNat s.row.toNat) ∧
    (s.dataByte.toNat = m.toNat + 0x80 → ∃ t, exec .kpoll s = .next t ∧
      t.mem = s.mem ∧ t.col = s.col ∧ t.row = s.row ∧ t.faulted = s.faulted)

/-- R136: a make code whose entry is a sentinel is dropped exactly like an unmapped one; with a table that keeps R33 the
function keys are such codes, and the modifier keys are unmapped. -/
def Obligations.SentinelsDropLikeUnmapped : Prop :=
  (∀ (s : State) (m : MakeCode), s.statusByte.getLsbD 0 = true → s.dataByte.toNat = m.toNat →
    (scancode s.table m).toInt ≤ 0 →
    exec .kpoll s = .next { s with
      kbdState := .idle
      portScript := s.portScript.drop 2, draws := s.pollRead.draws
      history := s.history ++ [.ioRead 0x64 s.statusByte, .ioRead 0x60 s.dataByte] }) ∧
  (∀ (p : Params) (t : ScancodeTable), TableOk p t →
    (∀ n : Fin 9, (scancode t p.fkeyIndex[n]).toInt < 0) ∧ (∀ m ∈ p.modifierIndices, (scancode t m).toInt = 0))

/-- The status byte's bits 7:1 make no difference but in the event recorded. -/
def Obligations.StatusHighBitsIgnored : Prop :=
  ∀ (s : State) (b b' : Byte) (rest : List Byte), b.getLsbD 0 = b'.getLsbD 0 →
    ∃ t t' es, exec .kpoll { s with portScript := b :: rest } = .next t ∧
      exec .kpoll { s with portScript := b' :: rest } = .next t' ∧ t' = { t with history := t'.history } ∧
      t.history = s.history ++ .ioRead 0x64 b :: es ∧ t'.history = s.history ++ .ioRead 0x64 b' :: es

/-! ### Frames -/

/-- SETCOLOR and SETCUR, whether they fault or not: no byte of memory, no event, no port byte, and nothing but the
attribute (SETCOLOR), the cursor or the fault state (SETCUR). -/
def Obligations.RegisterCommandFrame : Prop :=
  (∀ (s t : State) (a : Byte), exec (.setcolor a) s = .next t →
    (∀ addr, readByte t.mem addr = readByte s.mem addr) ∧
    t = { s with attr := t.attr, attrValid := t.attrValid }) ∧
  (∀ (s t : State) (x : Col) (y : Row), exec (.setcur x y) s = .next t →
    (∀ addr, readByte t.mem addr = readByte s.mem addr) ∧
    t = { s with
      col := t.col, row := t.row, curValid := t.curValid
      faulted := t.faulted, faultCode := t.faultCode, faultWord := t.faultWord })

/-- PUTCAT, PUTC and KPOLL: every byte outside the cell stored to reads as before; the stores go to the cell of the
operands (PUTCAT) or of the cursor before the command (PUTC, KPOLL); under NEWLINE a line feed stores nothing. The
registers that may change are named. -/
def Obligations.CellCommandFrame : Prop :=
  (∀ (s t : State) (c a : Byte) (x : Col) (y : Row), exec (.putcat c a x y) s = .next t →
    (∀ addr, addr ≠ cellAddr x.toNat y.toNat → addr ≠ cellAddr x.toNat y.toNat + 1 →
      readByte t.mem addr = readByte s.mem addr) ∧
    t = { s with
      mem := t.mem, history := t.history
      faulted := t.faulted, faultCode := t.faultCode, faultWord := t.faultWord }) ∧
  (∀ (s t : State) (c : Byte), exec (.putc c) s = .next t →
    (∀ addr, addr ≠ s.cursorAddr → addr ≠ s.cursorAddr + 1 → readByte t.mem addr = readByte s.mem addr) ∧
    (s.params.lfPolicy = .newline → c = 0x0A → t.mem = s.mem) ∧
    t = { s with
      col := t.col, row := t.row, mem := t.mem, history := t.history
      faulted := t.faulted, faultCode := t.faultCode, faultWord := t.faultWord }) ∧
  (∀ s t : State, exec .kpoll s = .next t →
    (∀ addr, addr ≠ s.cursorAddr → addr ≠ s.cursorAddr + 1 → readByte t.mem addr = readByte s.mem addr) ∧
    (decodeSc s.table s.dataByte = none → t.mem = s.mem) ∧
    t = { s with
      col := t.col, row := t.row, mem := t.mem, history := t.history, kbdState := t.kbdState
      portScript := t.portScript, draws := t.draws
      faulted := t.faulted, faultCode := t.faultCode, faultWord := t.faultWord })

/-- INIT and CLEAR: every byte outside the framebuffer reads as before, and the registers that may change are named. -/
def Obligations.RepaintFrame : Prop :=
  (∀ s t : State, exec .init s = .next t →
    (∀ addr, addr < 0xB8000 ∨ 0xB8FA0 ≤ addr → readByte t.mem addr = readByte s.mem addr) ∧
    t = { s with
      col := t.col, row := t.row, curValid := t.curValid, attr := t.attr, attrValid := t.attrValid
      mem := t.mem, history := t.history }) ∧
  (∀ s t : State, exec .clear s = .next t →
    (∀ addr, addr < 0xB8000 ∨ 0xB8FA0 ≤ addr → readByte t.mem addr = readByte s.mem addr) ∧
    t = { s with
      col := t.col, row := t.row, curValid := t.curValid, mem := t.mem, history := t.history
      faulted := t.faulted, faultCode := t.faultCode, faultWord := t.faultWord })

/-- No step writes the scancode table or the parameters; the attribute is written by INIT and SETCOLOR alone; the
cursor is not written by SETCOLOR and PUTCAT. -/
def Obligations.WhoWritesWhat : Prop :=
  (∀ s t : State, step s = .next t → t.table = s.table ∧ t.params = s.params) ∧
  (∀ (i : Instr) (s t : State), exec i s = .next t → t.attr ≠ s.attr ∨ t.attrValid ≠ s.attrValid →
    i = .init ∨ ∃ a, i = .setcolor a) ∧
  (∀ (i : Instr) (s t : State), exec i s = .next t →
    t.col ≠ s.col ∨ t.row ≠ s.row ∨ t.curValid ≠ s.curValid →
    i = .init ∨ i = .clear ∨ (∃ x y, i = .setcur x y) ∨ (∃ c, i = .putc c) ∨ i = .kpoll)

/-- The framebuffer is never read: two states that differ in its contents alone stay so under every command. -/
def Obligations.FramebufferNeverRead : Prop :=
  ∀ (i : Instr) (s : State) (m : Memory), ∃ t m', exec i s = .next t ∧
    exec i { s with mem := m } = .next { t with mem := m' }

/-- What a host reads: after PUTCAT the cell written, and every other cell as before, whether or not a command has
written it. -/
def Obligations.HostSeesCellWritten : Prop :=
  ∀ (s t : State) (c a : Byte) (x x' : Col) (y y' : Row), x.toNat < 80 → y.toNat < 25 → x'.toNat < 80 → y'.toNat < 25 →
    exec (.putcat c a x y) s = .next t →
    t.hostCell x'.toNat y'.toNat = if x' = x ∧ y' = y then a ++ c else s.hostCell x'.toNat y'.toNat

/-- The history only grows, by the accesses of the command: framebuffer writes, and for KPOLL one status read, then at
most one data read, then at most one write. -/
def Obligations.HistoryGrowsInOrder : Prop :=
  ∀ (i : Instr) (s t : State), exec i s = .next t → ∃ es, t.history = s.history ++ es ∧
    (i ≠ .kpoll → ∀ e ∈ es, ∃ addr v, e = .memWrite addr v) ∧
    (i = .kpoll → es = [.ioRead 0x64 s.statusByte] ∨ es = [.ioRead 0x64 s.statusByte, .ioRead 0x60 s.dataByte] ∨
      ∃ addr v, es = [.ioRead 0x64 s.statusByte, .ioRead 0x60 s.dataByte, .memWrite addr v])

/-! ### Faults -/

/-- A fault is precise: everything but the fault state is as before the command, except the port reads of a KPOLL,
which stay; the word of the command is kept. -/
def Obligations.FaultsArePrecise : Prop :=
  ∀ (i : Instr) (s t : State), s.faulted = false → s.kbdState = .idle → exec i s = .next t → t.faulted = true →
    t.faultCode ≠ .none ∧ t.faultWord = some (encode i) ∧
    (∃ reads, t.history = s.history ++ reads ∧ (∀ e ∈ reads, ∃ p b, e = .ioRead p b) ∧ (i ≠ .kpoll → reads = [])) ∧
    t = { s with
      history := t.history, portScript := t.portScript, draws := t.draws
      faulted := true, faultCode := t.faultCode, faultWord := t.faultWord } ∧
    (i ≠ .kpoll → t.portScript = s.portScript ∧ t.draws = s.draws)

/-- COORD is raised by PUTCAT and SETCUR with a coordinate outside the grid, whatever the registers hold, and by
nothing else; nothing but the fault state is written. -/
def Obligations.CoordExactlyOutOfGrid : Prop :=
  ∀ (i : Instr) (s t : State), s.faultCode = .none → exec i s = .next t →
    (t.faultCode = .coord ↔
      ∃ x : Col, ∃ y : Row, (80 ≤ x.toNat ∨ 25 ≤ y.toNat) ∧ (i = .setcur x y ∨ ∃ c a, i = .putcat c a x y)) ∧
    (t.faultCode = .coord →
      t = { s with faulted := true, faultCode := .coord, faultWord := some (encode i) })

/-- UNINIT is raised exactly where a command must read a register nothing has written: CLEAR under CURRENT, PUTC, and
KPOLL with a character. -/
def Obligations.UninitExactlyUnwritten : Prop :=
  ∀ (i : Instr) (s t : State), s.faultCode = .none → exec i s = .next t →
    (t.faultCode = .uninit ↔
      (i = .clear ∧ s.params.clearFill = .current ∧ s.attrValid = false) ∨
      (∃ c, (i = .putc c ∨
          (i = .kpoll ∧ s.statusByte.getLsbD 0 = true ∧ decodeSc s.table s.dataByte = some c)) ∧
        (s.curValid = false ∨ (s.attrValid = false ∧ (s.params.lfPolicy = .glyph ∨ c ≠ 0x0A)))))

/-! ### Sequences -/

/-- R114: WRITE of any bytes from any place of the cursor, under GLYPH: byte k goes to the linear index n0 + k, modulo
2000, later bytes over earlier ones, and the cursor ends at n0 + L, modulo 2000. The words stand anywhere in the run. -/
def Obligations.WriteSequenceLaw : Prop :=
  ∀ (s : State) (bytes : List Byte) (before after : List Word),
    s.faulted = false → ConsoleReady s → CursorInGrid s → s.params.lfPolicy = .glyph →
    s.words = before ++ bytes.map (fun b => encode (.putc b)) ++ after → s.pos = before.length →
    ∃ t : State, runFor bytes.length s = .next t ∧
      t.linear = (s.linear + bytes.length) % 2000 ∧
      t.col.toNat = (s.linear + bytes.length) % 2000 % 80 ∧ t.row.toNat = (s.linear + bytes.length) % 2000 / 80 ∧
      (∀ (k : Nat) (h : k < bytes.length), bytes.length ≤ k + 2000 →
        readByte t.mem (0xB8000 + 2 * ((s.linear + k) % 2000)) = some bytes[k] ∧
        readByte t.mem (0xB8000 + 2 * ((s.linear + k) % 2000) + 1) = some s.attr) ∧
      (∀ addr, (∀ k, k < bytes.length → addr ≠ 0xB8000 + 2 * ((s.linear + k) % 2000) ∧
          addr ≠ 0xB8000 + 2 * ((s.linear + k) % 2000) + 1) → readByte t.mem addr = readByte s.mem addr) ∧
      t = { s with
        col := t.col, row := t.row, mem := t.mem, pos := s.pos + bytes.length
        history := s.history ++
          bytes.mapIdx fun k b => .memWrite (0xB8000 + 2 * ((s.linear + k) % 2000)) (s.attr ++ b) }

/-- R115: 2000 + k characters from (0,0), 0 < k < 80: the cursor ends at (k,0), the first k cells hold the last k
characters, every other cell the character of its own index: no row is shifted. -/
def Obligations.RowWrapLaw : Prop :=
  ∀ (s : State) (bytes : List Byte) (k : Nat) (h : bytes.length = 2000 + k),
    0 < k → k < 80 → s.faulted = false → ConsoleReady s → s.col = 0 → s.row = 0 → s.params.lfPolicy = .glyph →
    s.words = bytes.map (fun b => encode (.putc b)) → s.pos = 0 →
    ∃ t : State, runFor bytes.length s = .next t ∧ t.col.toNat = k ∧ t.row.toNat = 0 ∧
      (∀ i (hi : i < k), readByte t.mem (0xB8000 + 2 * i) = some (bytes[2000 + i]'(by omega)) ∧
        readByte t.mem (0xB8000 + 2 * i + 1) = some s.attr) ∧
      (∀ i (_ : k ≤ i) (hi : i < 2000), readByte t.mem (0xB8000 + 2 * i) = some (bytes[i]'(by omega)) ∧
        readByte t.mem (0xB8000 + 2 * i + 1) = some s.attr)

/-! ### The assembler -/

/-- R81, R82 and R83: the words the pseudo-commands expand to. -/
def Obligations.PseudoCommandExpansion : Prop :=
  (∀ bytes : List Byte, (AsmStmt.write bytes).assemble = some (bytes.map fun b => encode (.putc b))) ∧
  (∀ pre post : List Byte, (∀ b ∈ pre, b ≠ 0) →
    (AsmStmt.writestr (pre ++ 0 :: post)).assemble = some (pre.map fun b => encode (.putc b)) ∧
    (AsmStmt.writestr pre).assemble = some (pre.map fun b => encode (.putc b))) ∧
  (∀ (bytes : List Byte) (x : Col) (y : Row) (ws : List Word), (AsmStmt.writestr bytes).assemble = some ws →
    (AsmStmt.writestrat bytes x.toNat y.toNat).assemble = some (encode (.setcur x y) :: ws))

/-- The assembler refuses exactly the operands that do not fit their fields, and builds the word of the table from
those that do (30_encoding.md section 3). -/
def Obligations.AssemblerRefusesWideOperands : Prop :=
  (∀ a, (AsmStmt.setcolor a).assemble = if a ≤ 255 then some [BitVec.ofNat 32 (0x30000000 + a * 2 ^ 8)] else none) ∧
  (∀ c, (AsmStmt.putc c).assemble = if c ≤ 255 then some [BitVec.ofNat 32 (0x50000000 + c)] else none) ∧
  (∀ x y, (AsmStmt.setcur x y).assemble =
    if x ≤ 127 ∧ y ≤ 31 then some [BitVec.ofNat 32 (0x60000000 + y * 2 ^ 23 + x * 2 ^ 16)] else none) ∧
  (∀ c a x y, (AsmStmt.putcat c a x y).assemble =
    if c ≤ 255 ∧ a ≤ 255 ∧ x ≤ 127 ∧ y ≤ 31 then
      some [BitVec.ofNat 32 (0x40000000 + y * 2 ^ 23 + x * 2 ^ 16 + a * 2 ^ 8 + c)] else none) ∧
  (∀ fg bg, attrOperand fg bg = if fg ≤ 15 ∧ bg ≤ 15 then some (fg + bg * 2 ^ 4) else none)
end

