-- ==== Sys2Proof/Laws/Encode.lean ====
section
/-! SUPPORT. The fields of a command word built from fields, and what fitting a pattern says of a word's fields. -/

namespace Sys2Proof

@[simp] theorem opField_commandWord (op : BitVec 4) (y : Row) (x : Col) (a c : Byte) :
    opField (commandWord op y x a c) = op := by
  ext i hi
  simp only [commandWord, opField, ← BitVec.getLsbD_eq_getElem, BitVec.getLsbD_extractLsb', BitVec.getLsbD_append]
  grind

@[simp] theorem cField_commandWord (op : BitVec 4) (y : Row) (x : Col) (a c : Byte) :
    cField (commandWord op y x a c) = c := by
  ext i hi
  simp [cField, commandWord]
  grind

@[simp] theorem aField_commandWord (op : BitVec 4) (y : Row) (x : Col) (a c : Byte) :
    aField (commandWord op y x a c) = a := by
  ext i hi
  simp [aField, commandWord]
  grind

@[simp] theorem xField_commandWord (op : BitVec 4) (y : Row) (x : Col) (a c : Byte) :
    xField (commandWord op y x a c) = x := by
  ext i hi
  simp [xField, commandWord]
  grind

@[simp] theorem yField_commandWord (op : BitVec 4) (y : Row) (x : Col) (a c : Byte) :
    yField (commandWord op y x a c) = y := by
  ext i hi
  simp [yField, commandWord]
  grind

/-- A word is its fields. -/
theorem commandWord_fields (w : Word) :
    commandWord (opField w) (yField w) (xField w) (aField w) (cField w) = w := by
  ext i hi
  simp only [commandWord, opField, yField, xField, aField, cField, BitVec.getLsbD_append, ← BitVec.getLsbD_eq_getElem,
    BitVec.getLsbD_extractLsb']
  grind

theorem opField_and (w v : Word) : opField (w &&& v) = opField w &&& opField v := by
  ext i hi
  simp [opField]

/-- A word that fits a pattern whose mask keeps all of OP has the pattern's OP. -/
theorem opField_of_fits {p : Pattern} {w : Word} (hm : opField p.mask = 0xF) (h : p.fits w = true) :
    opField w = opField p.value := by
  have h' : w &&& p.mask = p.value := by simpa [Pattern.fits] using h
  rw [← h', opField_and, hm]
  exact (BitVec.and_allOnes (x := opField w)).symm

/-! ### Words by their fields -/

/-- Masking a word masks its fields. -/
theorem commandWord_and (op op' : BitVec 4) (y y' : Row) (x x' : Col) (a a' c c' : Byte) :
    commandWord op y x a c &&& commandWord op' y' x' a' c'
      = commandWord (op &&& op') (y &&& y') (x &&& x') (a &&& a') (c &&& c') := by
  ext i hi
  simp only [commandWord, ← BitVec.getLsbD_eq_getElem, BitVec.getLsbD_and, BitVec.getLsbD_append]
  grind

/-- Equal words have equal fields. -/
theorem commandWord_inj {op op' : BitVec 4} {y y' : Row} {x x' : Col} {a a' c c' : Byte} :
    commandWord op y x a c = commandWord op' y' x' a' c' ↔ op = op' ∧ y = y' ∧ x = x' ∧ a = a' ∧ c = c' := by
  constructor
  · intro h
    have ho := congrArg opField h
    have hy := congrArg yField h
    have hx := congrArg xField h
    have ha := congrArg aField h
    have hc := congrArg cField h
    simp only [opField_commandWord, yField_commandWord, xField_commandWord, aField_commandWord,
      cField_commandWord] at ho hy hx ha hc
    exact ⟨ho, hy, hx, ha, hc⟩
  · rintro ⟨rfl, rfl, rfl, rfl, rfl⟩
    rfl

/-- A pattern whose mask and value are given by fields, on a word given by fields. -/
theorem fits_commandWord (mo vo op : BitVec 4) (my vy y : Row) (mx vx x : Col) (ma va a mc vc c : Byte) :
    (Pattern.mk (commandWord mo my mx ma mc) (commandWord vo vy vx va vc)).fits (commandWord op y x a c)
      = decide (op &&& mo = vo ∧ y &&& my = vy ∧ x &&& mx = vx ∧ a &&& ma = va ∧ c &&& mc = vc) := by
  simp only [Pattern.fits, commandWord_and, Bool.beq_eq_decide_eq, commandWord_inj]

/-- A word read as a number. -/
theorem toNat_commandWord (op : BitVec 4) (y : Row) (x : Col) (a c : Byte) :
    (commandWord op y x a c).toNat
      = op.toNat * 2 ^ 28 + y.toNat * 2 ^ 23 + x.toNat * 2 ^ 16 + a.toNat * 2 ^ 8 + c.toNat := by
  have hy := y.isLt
  have hx := x.isLt
  have ha := a.isLt
  have hc := c.isLt
  simp only [commandWord, BitVec.toNat_append]
  rw [← Nat.shiftLeft_add_eq_or_of_lt hy, ← Nat.shiftLeft_add_eq_or_of_lt hx, ← Nat.shiftLeft_add_eq_or_of_lt ha,
    ← Nat.shiftLeft_add_eq_or_of_lt hc]
  simp only [Nat.shiftLeft_eq]
  omega

/-! ### The patterns by their fields -/

theorem initPattern_eq : initPattern = ⟨commandWord 15 31 127 255 255, commandWord 1 0 0 0 0⟩ := by decide
theorem clearPattern_eq : clearPattern = ⟨commandWord 15 31 127 255 255, commandWord 2 0 0 0 0⟩ := by decide
theorem setcolorPattern_eq : setcolorPattern = ⟨commandWord 15 31 127 0 255, commandWord 3 0 0 0 0⟩ := by decide
theorem putcatPattern_eq : putcatPattern = ⟨commandWord 15 0 0 0 0, commandWord 4 0 0 0 0⟩ := by decide
theorem putcPattern_eq : putcPattern = ⟨commandWord 15 31 127 255 0, commandWord 5 0 0 0 0⟩ := by decide
theorem setcurPattern_eq : setcurPattern = ⟨commandWord 15 0 0 255 255, commandWord 6 0 0 0 0⟩ := by decide
theorem kpollPattern_eq : kpollPattern = ⟨commandWord 15 31 127 255 255, commandWord 7 0 0 0 0⟩ := by decide

end Sys2Proof
end

