-- ==== Sys2Proof/Laws/Memory.lean ====
section
/-! SUPPORT. What the memory operations do: reading after writing, the canonical form, and equal reads making equal
memories. -/

namespace Sys2Proof.Machine

@[simp] theorem readByte_nil (k : Nat) : readByte [] k = none := rfl

/-- A read after a byte write. -/
theorem readByte_writeByte (m : Memory) (a : Nat) (b : Byte) (k : Nat) :
    readByte (writeByte m a b) k = if k = a then some b else readByte m k := by
  induction m with
  | nil => simp [writeByte, readByte, eq_comm]
  | cons p rest ih =>
    obtain ⟨j, v⟩ := p
    unfold writeByte
    split_ifs with hlt heq <;> simp only [readByte] <;> grind

/-- The entries of a memory after a byte write. -/
theorem mem_writeByte {m : Memory} {a : Nat} {b : Byte} {p : Host.Cell} (h : p ∈ writeByte m a b) :
    p = (a, b) ∨ p ∈ m := by
  induction m with
  | nil => simpa [writeByte] using h
  | cons q rest ih =>
    unfold writeByte at h
    split_ifs at h <;> simp only [List.mem_cons] at h ⊢ <;> grind

/-- A byte write keeps the canonical form. -/
theorem writeByte_wf {m : Memory} (h : m.wf) (a : Nat) (b : Byte) : (writeByte m a b).wf := by
  induction m with
  | nil => simp [writeByte, Memory.wf]
  | cons q rest ih =>
    obtain ⟨hq, hr⟩ := List.pairwise_cons.mp h
    unfold writeByte
    split_ifs with hlt heq
    · refine List.pairwise_cons.mpr ⟨?_, h⟩
      intro p hp
      rcases List.mem_cons.mp hp with rfl | hp
      · exact hlt
      · exact hlt.trans (hq p hp)
    · subst heq; exact List.pairwise_cons.mpr ⟨hq, hr⟩
    · refine List.pairwise_cons.mpr ⟨?_, ih hr⟩
      intro p hp
      rcases mem_writeByte hp with rfl | hp
      · show q.1 < a; omega
      · exact hq p hp

/-- A read after a cell write. -/
theorem readByte_writeCell (m : Memory) (a : Nat) (v : CellWord) (k : Nat) :
    readByte (writeCell m a v) k =
      if k = a + 1 then some (v.extractLsb' 8 8)
      else if k = a then some (v.extractLsb' 0 8)
      else readByte m k := by
  simp only [writeCell, readByte_writeByte]

/-- A read outside the cell written. -/
theorem readByte_writeCell_other {m : Memory} {a k : Nat} {v : CellWord} (h : k ≠ a) (h' : k ≠ a + 1) :
    readByte (writeCell m a v) k = readByte m k := by
  simp [readByte_writeCell, h, h']

/-- A cell write keeps the canonical form. -/
theorem writeCell_wf {m : Memory} (h : m.wf) (a : Nat) (v : CellWord) : (writeCell m a v).wf :=
  writeByte_wf (writeByte_wf h _ _) _ _

/-- The entries of a memory after a cell write. -/
theorem mem_writeCell {m : Memory} {a : Nat} {v : CellWord} {p : Host.Cell} (h : p ∈ writeCell m a v) :
    p.1 = a ∨ p.1 = a + 1 ∨ p ∈ m := by
  rcases mem_writeByte h with rfl | h
  · simp
  · rcases mem_writeByte h with rfl | h <;> simp [*]

theorem indexAddr_eq (i : Nat) : indexAddr i = Config.fbBase + 2 * i := rfl

/-- A read in a memory put together from two. -/
theorem readByte_append (m m' : Memory) (k : Nat) :
    readByte (m ++ m') k = (readByte m k).or (readByte m' k) := by
  induction m with
  | nil => simp
  | cons p rest ih =>
    obtain ⟨j, v⟩ := p
    simp only [List.cons_append, readByte]
    split
    · rfl
    · exact ih

/-- A read in the part of a memory that keeps every entry of the address. -/
theorem readByte_filter_of_keep {q : Nat → Bool} (m : Memory) {k : Nat} (h : q k = true) :
    readByte (m.filter fun p => q p.1) k = readByte m k := by
  induction m with
  | nil => rfl
  | cons p rest ih =>
    obtain ⟨j, v⟩ := p
    by_cases hj : j = k
    · subst hj; simp [h, readByte]
    · by_cases hq : q j = true <;> simp [hq, readByte, hj, ih]

/-- A read in the part of a memory that keeps no entry of the address. -/
theorem readByte_filter_of_drop {q : Nat → Bool} (m : Memory) {k : Nat} (h : q k = false) :
    readByte (m.filter fun p => q p.1) k = none := by
  induction m with
  | nil => rfl
  | cons p rest ih =>
    obtain ⟨j, v⟩ := p
    by_cases hq : q j = true
    · have hj : j ≠ k := by rintro rfl; simp [h] at hq
      simp [hq, readByte, hj, ih]
    · simp [hq, ih]

/-- The first `n` cells painted. -/
def paintedFirst (n : Nat) (v : CellWord) : Memory :=
  (List.range n).flatMap fun i => [(indexAddr i, v.extractLsb' 0 8), (indexAddr i + 1, v.extractLsb' 8 8)]

theorem paintedFirst_succ (n : Nat) (v : CellWord) :
    paintedFirst (n + 1) v
      = paintedFirst n v ++ [(indexAddr n, v.extractLsb' 0 8), (indexAddr n + 1, v.extractLsb' 8 8)] := by
  simp [paintedFirst, List.range_succ]

theorem readByte_paintedFirst (n : Nat) (v : CellWord) (k : Nat) :
    readByte (paintedFirst n v) k =
      if Config.fbBase ≤ k ∧ k < Config.fbBase + 2 * n then
        some (if (k - Config.fbBase) % 2 = 0 then v.extractLsb' 0 8 else v.extractLsb' 8 8)
      else none := by
  induction n with
  | zero =>
    rw [if_neg (by omega)]
    rfl
  | succ n ih =>
    have ha := indexAddr_eq n
    rw [paintedFirst_succ, readByte_append, ih]
    by_cases hin : Config.fbBase ≤ k ∧ k < Config.fbBase + 2 * n
    · rw [if_pos hin, if_pos (show Config.fbBase ≤ k ∧ k < Config.fbBase + 2 * (n + 1) by omega), Option.some_or]
    · rw [if_neg hin, Option.none_or]
      simp only [readByte]
      by_cases lo : indexAddr n = k
      · rw [if_pos lo, if_pos (by omega), if_pos (by omega)]
      · rw [if_neg lo]
        by_cases hi : indexAddr n + 1 = k
        · rw [if_pos hi, if_pos (by omega), if_neg (by omega)]
        · rw [if_neg hi, if_neg (by omega)]

theorem mem_paintedFirst {n : Nat} {v : CellWord} {p : Host.Cell} (h : p ∈ paintedFirst n v) :
    Config.fbBase ≤ p.1 ∧ p.1 < Config.fbBase + 2 * n := by
  simp only [paintedFirst, List.mem_flatMap, List.mem_range, List.mem_cons, List.not_mem_nil, or_false] at h
  obtain ⟨i, hi, rfl | rfl⟩ := h <;> simp only [indexAddr_eq] <;> omega

theorem paintedFirst_wf (n : Nat) (v : CellWord) : (paintedFirst n v).wf := by
  induction n with
  | zero => exact List.Pairwise.nil
  | succ n ih =>
    rw [paintedFirst_succ]
    refine List.pairwise_append.mpr ⟨ih, by simp, ?_⟩
    intro p hp q hq
    have := mem_paintedFirst hp
    have ha := indexAddr_eq n
    simp only [List.mem_cons, List.not_mem_nil, or_false] at hq
    rcases hq with rfl | rfl <;> simp only <;> omega

/-- A read after a repaint: inside the window the painted cell's byte, outside what was there. -/
theorem readByte_fillCells (m : Memory) (v : CellWord) (k : Nat) :
    readByte (fillCells m v) k =
      if Config.fbBase ≤ k ∧ k < Config.fbBase + Config.fbBytes then
        some (if (k - Config.fbBase) % 2 = 0 then v.extractLsb' 0 8 else v.extractLsb' 8 8)
      else readByte m k := by
  have hp : readByte (paintedBytes v) k = _ := readByte_paintedFirst Config.cells v k
  have hb : Config.fbBytes = 2 * Config.cells := rfl
  rw [fillCells, readByte_append, readByte_append, hp, ← hb]
  by_cases low : k < Config.fbBase
  · have hw : ¬ (Config.fbBase ≤ k ∧ k < Config.fbBase + Config.fbBytes) := by omega
    rw [readByte_filter_of_keep (q := fun a => decide (a < Config.fbBase)) m (by simpa using low),
      readByte_filter_of_drop (q := fun a => decide (Config.fbBase + Config.fbBytes ≤ a)) m (by simp; omega)]
    simp only [if_neg hw, Option.or_none]
  · rw [readByte_filter_of_drop (q := fun a => decide (a < Config.fbBase)) m (by simpa using low), Option.none_or]
    by_cases high : k < Config.fbBase + Config.fbBytes
    · have hw : Config.fbBase ≤ k ∧ k < Config.fbBase + Config.fbBytes := by omega
      simp only [if_pos hw, Option.some_or]
    · have hw : ¬ (Config.fbBase ≤ k ∧ k < Config.fbBase + Config.fbBytes) := by omega
      rw [readByte_filter_of_keep (q := fun a => decide (Config.fbBase + Config.fbBytes ≤ a)) m (by simp; omega)]
      simp only [if_neg hw, Option.none_or]

/-- The character byte of every cell after a repaint. -/
theorem readByte_fillCells_char (m : Memory) (v : CellWord) {i : Nat} (h : i < Config.cells) :
    readByte (fillCells m v) (indexAddr i) = some (v.extractLsb' 0 8) := by
  have hb : Config.fbBytes = 2 * Config.cells := rfl
  have ha := indexAddr_eq i
  rw [readByte_fillCells, if_pos (by omega), if_pos (by omega)]

/-- The attribute byte of every cell after a repaint. -/
theorem readByte_fillCells_attr (m : Memory) (v : CellWord) {i : Nat} (h : i < Config.cells) :
    readByte (fillCells m v) (indexAddr i + 1) = some (v.extractLsb' 8 8) := by
  have hb : Config.fbBytes = 2 * Config.cells := rfl
  have ha := indexAddr_eq i
  rw [readByte_fillCells, if_pos (by omega), if_neg (by omega)]

/-- A byte outside the window after a repaint. -/
theorem readByte_fillCells_outside (m : Memory) (v : CellWord) {k : Nat}
    (h : k < Config.fbBase ∨ Config.fbBase + Config.fbBytes ≤ k) : readByte (fillCells m v) k = readByte m k := by
  rw [readByte_fillCells, if_neg (by omega)]

/-- The entries of a memory after a repaint. -/
theorem mem_fillCells {m : Memory} {v : CellWord} {p : Host.Cell} (h : p ∈ fillCells m v) :
    (Config.fbBase ≤ p.1 ∧ p.1 < Config.fbBase + Config.fbBytes) ∨ p ∈ m := by
  rcases List.mem_append.mp h with h | h
  · exact .inr (List.mem_filter.mp h).1
  · rcases List.mem_append.mp h with h | h
    · exact .inl (mem_paintedFirst (n := Config.cells) h)
    · exact .inr (List.mem_filter.mp h).1

/-- A repaint keeps the canonical form. -/
theorem fillCells_wf {m : Memory} (h : m.wf) (v : CellWord) : (fillCells m v).wf := by
  have hpaint : ∀ p ∈ paintedBytes v, Config.fbBase ≤ p.1 ∧ p.1 < Config.fbBase + Config.fbBytes :=
    fun p hp => mem_paintedFirst (n := Config.cells) hp
  refine List.pairwise_append.mpr ⟨h.filter _, List.pairwise_append.mpr ⟨paintedFirst_wf _ v, h.filter _, ?_⟩, ?_⟩
  · intro p hp q hq
    have := hpaint p hp
    have := (List.mem_filter.mp hq).2
    simp only [decide_eq_true_eq] at this
    omega
  · intro p hp q hq
    have hlow := (List.mem_filter.mp hp).2
    simp only [decide_eq_true_eq] at hlow
    rcases List.mem_append.mp hq with hq | hq
    · have := hpaint q hq; omega
    · have := (List.mem_filter.mp hq).2
      simp only [decide_eq_true_eq] at this
      omega

/-- An address below every entry reads as nothing. -/
theorem readByte_of_below {m : Memory} {k : Nat} (h : ∀ p ∈ m, k < p.1) : readByte m k = none := by
  induction m with
  | nil => rfl
  | cons q rest ih =>
    have hq := h q (by simp)
    unfold readByte
    rw [if_neg (by omega)]
    exact ih fun p hp => h p (by simp [hp])

/-- Equal reads make equal memories: the form is canonical. -/
theorem memory_ext : ∀ {m m' : Memory}, m.wf → m'.wf → (∀ k, readByte m k = readByte m' k) → m = m'
  | [], [], _, _, _ => rfl
  | [], (j, v) :: _, _, _, h => by simpa [readByte] using h j
  | (j, v) :: _, [], _, _, h => by simpa [readByte] using h j
  | (j, v) :: m, (j', v') :: m', hm, hm', h => by
    obtain ⟨hj, hr⟩ := List.pairwise_cons.mp hm
    obtain ⟨hj', hr'⟩ := List.pairwise_cons.mp hm'
    have hnone := readByte_of_below hj
    have hnone' := readByte_of_below hj'
    have hlt : ¬ j < j' := fun hlt => by
      have := h j
      simp only [readByte, if_true, if_neg (show ¬ j' = j by omega)] at this
      rw [readByte_of_below (fun p hp => hlt.trans (hj' p hp))] at this
      simp at this
    have hgt : ¬ j' < j := fun hgt => by
      have := h j'
      simp only [readByte, if_true, if_neg (show ¬ j = j' by omega)] at this
      rw [readByte_of_below (fun p hp => hgt.trans (hj p hp))] at this
      simp at this
    obtain rfl : j = j' := by omega
    obtain rfl : v = v' := by simpa [readByte] using h j
    have hrest : ∀ k, readByte m k = readByte m' k := fun k => by
      by_cases hk : j = k
      · subst hk; rw [hnone, hnone']
      · simpa [readByte, hk] using h k
    rw [memory_ext hr hr' hrest]

/-- Painting twice is painting once (20_memory.md R57). -/
theorem fillCells_fillCells {m : Memory} (h : m.wf) (v : CellWord) : fillCells (fillCells m v) v = fillCells m v :=
  memory_ext (fillCells_wf (fillCells_wf h v) v) (fillCells_wf h v) fun k => by
    rw [readByte_fillCells (fillCells m v), readByte_fillCells m]
    split <;> rfl

/-- The first `n` cell writes of a repaint, one after the other in ascending index order. -/
def loopFirst (n : Nat) (m : Memory) (v : CellWord) : Memory :=
  (List.range n).foldl (fun m i => writeCell m (indexAddr i) v) m

theorem loopFirst_succ (n : Nat) (m : Memory) (v : CellWord) :
    loopFirst (n + 1) m v = writeCell (loopFirst n m v) (indexAddr n) v := by
  simp [loopFirst, List.range_succ]

theorem readByte_loopFirst (n : Nat) (m : Memory) (v : CellWord) (k : Nat) :
    readByte (loopFirst n m v) k =
      if Config.fbBase ≤ k ∧ k < Config.fbBase + 2 * n then
        some (if (k - Config.fbBase) % 2 = 0 then v.extractLsb' 0 8 else v.extractLsb' 8 8)
      else readByte m k := by
  induction n with
  | zero =>
    rw [if_neg (by omega)]
    simp [loopFirst]
  | succ n ih =>
    rw [loopFirst_succ, readByte_writeCell, ih]
    have ha := indexAddr_eq n
    by_cases hi : k = indexAddr n + 1
    · rw [if_pos hi, if_pos (by omega), if_neg (by omega)]
    · rw [if_neg hi]
      by_cases lo : k = indexAddr n
      · rw [if_pos lo, if_pos (by omega), if_pos (by omega)]
      · rw [if_neg lo]
        by_cases hin : Config.fbBase ≤ k ∧ k < Config.fbBase + 2 * n
        · rw [if_pos hin, if_pos (show Config.fbBase ≤ k ∧ k < Config.fbBase + 2 * (n + 1) by omega)]
        · rw [if_neg hin, if_neg (by omega)]

theorem loopFirst_wf {m : Memory} (h : m.wf) (n : Nat) (v : CellWord) : (loopFirst n m v).wf := by
  induction n with
  | zero => exact h
  | succ n ih => rw [loopFirst_succ]; exact writeCell_wf ih _ _

/-- A repaint of a canonical memory is the spec's loop: 2000 cell writes in ascending index order. -/
theorem fillCells_eq_loop {m : Memory} (h : m.wf) (v : CellWord) : fillCells m v = loopFirst Config.cells m v :=
  memory_ext (fillCells_wf h v) (loopFirst_wf h _ v) fun k => by
    rw [readByte_fillCells, readByte_loopFirst]
    rfl

end Sys2Proof.Machine
end

