-- ==== Sys2Proof/Laws/Operands.lean ====
section
/-! SUPPORT. Packed cells, cell addresses and the cursor's next place. -/

namespace Sys2Proof.Machine

/-- A packed cell is the attribute above the character. -/
theorem pack_eq_append (c a : Byte) : pack c a = a ++ c := by
  ext i hi
  simp only [pack, ← BitVec.getLsbD_eq_getElem, BitVec.getLsbD_or, BitVec.getLsbD_shiftLeft, BitVec.getLsbD_setWidth,
    BitVec.getLsbD_append]
  grind

@[simp] theorem pack_low (c a : Byte) : (pack c a).extractLsb' 0 8 = c := by
  ext i hi
  simp only [pack_eq_append, ← BitVec.getLsbD_eq_getElem, BitVec.getLsbD_extractLsb', BitVec.getLsbD_append]
  grind

@[simp] theorem pack_high (c a : Byte) : (pack c a).extractLsb' 8 8 = a := by
  ext i hi
  simp only [pack_eq_append, ← BitVec.getLsbD_eq_getElem, BitVec.getLsbD_extractLsb', BitVec.getLsbD_append]
  grind

theorem cellAddr_eq (x y : Nat) : cellAddr x y = 0xB8000 + 2 * (y * 80 + x) := rfl

theorem cellIndex_lt {x y : Nat} (hx : x < Config.width) (hy : y < Config.height) : cellIndex x y < Config.cells := by
  simp only [cellIndex, Config.width, Config.height, Config.cells] at *
  omega

@[simp] theorem coordsLegal_iff (x : Col) (y : Row) :
    coordsLegal x y = true ↔ x.toNat < Config.width ∧ y.toNat < Config.height := by
  simp [coordsLegal]

/-- `nextRow` stays in the grid. -/
theorem nextRow_lt {row : Nat} (hr : row < Config.height) : nextRow row < Config.height := by
  unfold nextRow
  split
  · decide
  · omega

/-- `advance` stays in the grid. -/
theorem advance_lt {col row : Nat} (hc : col < Config.width) (hr : row < Config.height) :
    (advance col row).1 < Config.width ∧ (advance col row).2 < Config.height := by
  unfold advance
  split
  · exact ⟨Nat.zero_lt_of_lt hc, nextRow_lt hr⟩
  · exact ⟨by omega, hr⟩

end Sys2Proof.Machine
end

