-- ==== Sys2Proof/Laws/State.lean ====
section
/-! SUPPORT. What every field of the state is after each named operation, one lemma per field per operation. -/

namespace Sys2Proof.Machine

variable (s : State)

/-! ### State.setCursor -/

@[simp] theorem State.setCursor_col (x : Col) (y : Row) : (s.setCursor x y).col = x := rfl
@[simp] theorem State.setCursor_row (x : Col) (y : Row) : (s.setCursor x y).row = y := rfl
@[simp] theorem State.setCursor_attr (x : Col) (y : Row) : (s.setCursor x y).attr = s.attr := rfl
@[simp] theorem State.setCursor_curValid (x : Col) (y : Row) : (s.setCursor x y).curValid = true := rfl
@[simp] theorem State.setCursor_attrValid (x : Col) (y : Row) : (s.setCursor x y).attrValid = s.attrValid := rfl
@[simp] theorem State.setCursor_history (x : Col) (y : Row) : (s.setCursor x y).history = s.history := rfl
@[simp] theorem State.setCursor_mem (x : Col) (y : Row) : (s.setCursor x y).mem = s.mem := rfl
@[simp] theorem State.setCursor_kbdState (x : Col) (y : Row) : (s.setCursor x y).kbdState = s.kbdState := rfl
@[simp] theorem State.setCursor_faulted (x : Col) (y : Row) : (s.setCursor x y).faulted = s.faulted := rfl
@[simp] theorem State.setCursor_faultCode (x : Col) (y : Row) : (s.setCursor x y).faultCode = s.faultCode := rfl
@[simp] theorem State.setCursor_faultWord (x : Col) (y : Row) : (s.setCursor x y).faultWord = s.faultWord := rfl
@[simp] theorem State.setCursor_table (x : Col) (y : Row) : (s.setCursor x y).table = s.table := rfl
@[simp] theorem State.setCursor_params (x : Col) (y : Row) : (s.setCursor x y).params = s.params := rfl
@[simp] theorem State.setCursor_words (x : Col) (y : Row) : (s.setCursor x y).words = s.words := rfl
@[simp] theorem State.setCursor_pos (x : Col) (y : Row) : (s.setCursor x y).pos = s.pos := rfl
@[simp] theorem State.setCursor_portScript (x : Col) (y : Row) : (s.setCursor x y).portScript = s.portScript := rfl
@[simp] theorem State.setCursor_draws (x : Col) (y : Row) : (s.setCursor x y).draws = s.draws := rfl
@[simp] theorem State.setCursor_resets (x : Col) (y : Row) : (s.setCursor x y).resets = s.resets := rfl

/-! ### State.setAttr -/

@[simp] theorem State.setAttr_col (a : Byte) : (s.setAttr a).col = s.col := rfl
@[simp] theorem State.setAttr_row (a : Byte) : (s.setAttr a).row = s.row := rfl
@[simp] theorem State.setAttr_attr (a : Byte) : (s.setAttr a).attr = a := rfl
@[simp] theorem State.setAttr_curValid (a : Byte) : (s.setAttr a).curValid = s.curValid := rfl
@[simp] theorem State.setAttr_attrValid (a : Byte) : (s.setAttr a).attrValid = true := rfl
@[simp] theorem State.setAttr_history (a : Byte) : (s.setAttr a).history = s.history := rfl
@[simp] theorem State.setAttr_mem (a : Byte) : (s.setAttr a).mem = s.mem := rfl
@[simp] theorem State.setAttr_kbdState (a : Byte) : (s.setAttr a).kbdState = s.kbdState := rfl
@[simp] theorem State.setAttr_faulted (a : Byte) : (s.setAttr a).faulted = s.faulted := rfl
@[simp] theorem State.setAttr_faultCode (a : Byte) : (s.setAttr a).faultCode = s.faultCode := rfl
@[simp] theorem State.setAttr_faultWord (a : Byte) : (s.setAttr a).faultWord = s.faultWord := rfl
@[simp] theorem State.setAttr_table (a : Byte) : (s.setAttr a).table = s.table := rfl
@[simp] theorem State.setAttr_params (a : Byte) : (s.setAttr a).params = s.params := rfl
@[simp] theorem State.setAttr_words (a : Byte) : (s.setAttr a).words = s.words := rfl
@[simp] theorem State.setAttr_pos (a : Byte) : (s.setAttr a).pos = s.pos := rfl
@[simp] theorem State.setAttr_portScript (a : Byte) : (s.setAttr a).portScript = s.portScript := rfl
@[simp] theorem State.setAttr_draws (a : Byte) : (s.setAttr a).draws = s.draws := rfl
@[simp] theorem State.setAttr_resets (a : Byte) : (s.setAttr a).resets = s.resets := rfl

/-! ### State.setKbd -/

@[simp] theorem State.setKbd_col (k : KbdState) : (s.setKbd k).col = s.col := rfl
@[simp] theorem State.setKbd_row (k : KbdState) : (s.setKbd k).row = s.row := rfl
@[simp] theorem State.setKbd_attr (k : KbdState) : (s.setKbd k).attr = s.attr := rfl
@[simp] theorem State.setKbd_curValid (k : KbdState) : (s.setKbd k).curValid = s.curValid := rfl
@[simp] theorem State.setKbd_attrValid (k : KbdState) : (s.setKbd k).attrValid = s.attrValid := rfl
@[simp] theorem State.setKbd_history (k : KbdState) : (s.setKbd k).history = s.history := rfl
@[simp] theorem State.setKbd_mem (k : KbdState) : (s.setKbd k).mem = s.mem := rfl
@[simp] theorem State.setKbd_kbdState (k : KbdState) : (s.setKbd k).kbdState = k := rfl
@[simp] theorem State.setKbd_faulted (k : KbdState) : (s.setKbd k).faulted = s.faulted := rfl
@[simp] theorem State.setKbd_faultCode (k : KbdState) : (s.setKbd k).faultCode = s.faultCode := rfl
@[simp] theorem State.setKbd_faultWord (k : KbdState) : (s.setKbd k).faultWord = s.faultWord := rfl
@[simp] theorem State.setKbd_table (k : KbdState) : (s.setKbd k).table = s.table := rfl
@[simp] theorem State.setKbd_params (k : KbdState) : (s.setKbd k).params = s.params := rfl
@[simp] theorem State.setKbd_words (k : KbdState) : (s.setKbd k).words = s.words := rfl
@[simp] theorem State.setKbd_pos (k : KbdState) : (s.setKbd k).pos = s.pos := rfl
@[simp] theorem State.setKbd_portScript (k : KbdState) : (s.setKbd k).portScript = s.portScript := rfl
@[simp] theorem State.setKbd_draws (k : KbdState) : (s.setKbd k).draws = s.draws := rfl
@[simp] theorem State.setKbd_resets (k : KbdState) : (s.setKbd k).resets = s.resets := rfl

/-! ### State.memWrite -/

@[simp] theorem State.memWrite_col (addr : Nat) (v : CellWord) : (s.memWrite addr v).col = s.col := rfl
@[simp] theorem State.memWrite_row (addr : Nat) (v : CellWord) : (s.memWrite addr v).row = s.row := rfl
@[simp] theorem State.memWrite_attr (addr : Nat) (v : CellWord) : (s.memWrite addr v).attr = s.attr := rfl
@[simp] theorem State.memWrite_curValid (addr : Nat) (v : CellWord) : (s.memWrite addr v).curValid = s.curValid := rfl
@[simp] theorem State.memWrite_attrValid (addr : Nat) (v : CellWord) : (s.memWrite addr v).attrValid = s.attrValid := rfl
@[simp] theorem State.memWrite_history (addr : Nat) (v : CellWord) : (s.memWrite addr v).history = s.history ++ [.memWrite addr v] := rfl
@[simp] theorem State.memWrite_mem (addr : Nat) (v : CellWord) : (s.memWrite addr v).mem = writeCell s.mem addr v := rfl
@[simp] theorem State.memWrite_kbdState (addr : Nat) (v : CellWord) : (s.memWrite addr v).kbdState = s.kbdState := rfl
@[simp] theorem State.memWrite_faulted (addr : Nat) (v : CellWord) : (s.memWrite addr v).faulted = s.faulted := rfl
@[simp] theorem State.memWrite_faultCode (addr : Nat) (v : CellWord) : (s.memWrite addr v).faultCode = s.faultCode := rfl
@[simp] theorem State.memWrite_faultWord (addr : Nat) (v : CellWord) : (s.memWrite addr v).faultWord = s.faultWord := rfl
@[simp] theorem State.memWrite_table (addr : Nat) (v : CellWord) : (s.memWrite addr v).table = s.table := rfl
@[simp] theorem State.memWrite_params (addr : Nat) (v : CellWord) : (s.memWrite addr v).params = s.params := rfl
@[simp] theorem State.memWrite_words (addr : Nat) (v : CellWord) : (s.memWrite addr v).words = s.words := rfl
@[simp] theorem State.memWrite_pos (addr : Nat) (v : CellWord) : (s.memWrite addr v).pos = s.pos := rfl
@[simp] theorem State.memWrite_portScript (addr : Nat) (v : CellWord) : (s.memWrite addr v).portScript = s.portScript := rfl
@[simp] theorem State.memWrite_draws (addr : Nat) (v : CellWord) : (s.memWrite addr v).draws = s.draws := rfl
@[simp] theorem State.memWrite_resets (addr : Nat) (v : CellWord) : (s.memWrite addr v).resets = s.resets := rfl

/-! ### State.repaint -/

@[simp] theorem State.repaint_col (v : CellWord) : (s.repaint v).col = s.col := rfl
@[simp] theorem State.repaint_row (v : CellWord) : (s.repaint v).row = s.row := rfl
@[simp] theorem State.repaint_attr (v : CellWord) : (s.repaint v).attr = s.attr := rfl
@[simp] theorem State.repaint_curValid (v : CellWord) : (s.repaint v).curValid = s.curValid := rfl
@[simp] theorem State.repaint_attrValid (v : CellWord) : (s.repaint v).attrValid = s.attrValid := rfl
@[simp] theorem State.repaint_history (v : CellWord) : (s.repaint v).history = s.history ++ fillEvents v := rfl
@[simp] theorem State.repaint_mem (v : CellWord) : (s.repaint v).mem = fillCells s.mem v := rfl
@[simp] theorem State.repaint_kbdState (v : CellWord) : (s.repaint v).kbdState = s.kbdState := rfl
@[simp] theorem State.repaint_faulted (v : CellWord) : (s.repaint v).faulted = s.faulted := rfl
@[simp] theorem State.repaint_faultCode (v : CellWord) : (s.repaint v).faultCode = s.faultCode := rfl
@[simp] theorem State.repaint_faultWord (v : CellWord) : (s.repaint v).faultWord = s.faultWord := rfl
@[simp] theorem State.repaint_table (v : CellWord) : (s.repaint v).table = s.table := rfl
@[simp] theorem State.repaint_params (v : CellWord) : (s.repaint v).params = s.params := rfl
@[simp] theorem State.repaint_words (v : CellWord) : (s.repaint v).words = s.words := rfl
@[simp] theorem State.repaint_pos (v : CellWord) : (s.repaint v).pos = s.pos := rfl
@[simp] theorem State.repaint_portScript (v : CellWord) : (s.repaint v).portScript = s.portScript := rfl
@[simp] theorem State.repaint_draws (v : CellWord) : (s.repaint v).draws = s.draws := rfl
@[simp] theorem State.repaint_resets (v : CellWord) : (s.repaint v).resets = s.resets := rfl

/-! ### State.afterRead -/

@[simp] theorem State.afterRead_col (p : Port) : (s.afterRead p).col = s.col := rfl
@[simp] theorem State.afterRead_row (p : Port) : (s.afterRead p).row = s.row := rfl
@[simp] theorem State.afterRead_attr (p : Port) : (s.afterRead p).attr = s.attr := rfl
@[simp] theorem State.afterRead_curValid (p : Port) : (s.afterRead p).curValid = s.curValid := rfl
@[simp] theorem State.afterRead_attrValid (p : Port) : (s.afterRead p).attrValid = s.attrValid := rfl
@[simp] theorem State.afterRead_history (p : Port) : (s.afterRead p).history = s.history ++ [.ioRead p (s.portByte p)] := rfl
@[simp] theorem State.afterRead_mem (p : Port) : (s.afterRead p).mem = s.mem := rfl
@[simp] theorem State.afterRead_kbdState (p : Port) : (s.afterRead p).kbdState = s.kbdState := rfl
@[simp] theorem State.afterRead_faulted (p : Port) : (s.afterRead p).faulted = s.faulted := rfl
@[simp] theorem State.afterRead_faultCode (p : Port) : (s.afterRead p).faultCode = s.faultCode := rfl
@[simp] theorem State.afterRead_faultWord (p : Port) : (s.afterRead p).faultWord = s.faultWord := rfl
@[simp] theorem State.afterRead_table (p : Port) : (s.afterRead p).table = s.table := rfl
@[simp] theorem State.afterRead_params (p : Port) : (s.afterRead p).params = s.params := rfl
@[simp] theorem State.afterRead_words (p : Port) : (s.afterRead p).words = s.words := rfl
@[simp] theorem State.afterRead_pos (p : Port) : (s.afterRead p).pos = s.pos := rfl
@[simp] theorem State.afterRead_portScript (p : Port) : (s.afterRead p).portScript = s.portScript.tail := rfl
@[simp] theorem State.afterRead_draws (p : Port) : (s.afterRead p).draws = if s.portScript.isEmpty then s.draws + 1 else s.draws := rfl
@[simp] theorem State.afterRead_resets (p : Port) : (s.afterRead p).resets = s.resets := rfl

/-! ### State.raise -/

@[simp] theorem State.raise_col (c : FaultCode) (w : Word) : (s.raise c w).col = s.col := rfl
@[simp] theorem State.raise_row (c : FaultCode) (w : Word) : (s.raise c w).row = s.row := rfl
@[simp] theorem State.raise_attr (c : FaultCode) (w : Word) : (s.raise c w).attr = s.attr := rfl
@[simp] theorem State.raise_curValid (c : FaultCode) (w : Word) : (s.raise c w).curValid = s.curValid := rfl
@[simp] theorem State.raise_attrValid (c : FaultCode) (w : Word) : (s.raise c w).attrValid = s.attrValid := rfl
@[simp] theorem State.raise_history (c : FaultCode) (w : Word) : (s.raise c w).history = s.history := rfl
@[simp] theorem State.raise_mem (c : FaultCode) (w : Word) : (s.raise c w).mem = s.mem := rfl
@[simp] theorem State.raise_kbdState (c : FaultCode) (w : Word) : (s.raise c w).kbdState = s.kbdState := rfl
@[simp] theorem State.raise_faulted (c : FaultCode) (w : Word) : (s.raise c w).faulted = true := rfl
@[simp] theorem State.raise_faultCode (c : FaultCode) (w : Word) : (s.raise c w).faultCode = c := rfl
@[simp] theorem State.raise_faultWord (c : FaultCode) (w : Word) : (s.raise c w).faultWord = some w := rfl
@[simp] theorem State.raise_table (c : FaultCode) (w : Word) : (s.raise c w).table = s.table := rfl
@[simp] theorem State.raise_params (c : FaultCode) (w : Word) : (s.raise c w).params = s.params := rfl
@[simp] theorem State.raise_words (c : FaultCode) (w : Word) : (s.raise c w).words = s.words := rfl
@[simp] theorem State.raise_pos (c : FaultCode) (w : Word) : (s.raise c w).pos = s.pos := rfl
@[simp] theorem State.raise_portScript (c : FaultCode) (w : Word) : (s.raise c w).portScript = s.portScript := rfl
@[simp] theorem State.raise_draws (c : FaultCode) (w : Word) : (s.raise c w).draws = s.draws := rfl
@[simp] theorem State.raise_resets (c : FaultCode) (w : Word) : (s.raise c w).resets = s.resets := rfl

/-! ### State.advanceCursor -/

@[simp] theorem State.advanceCursor_col : s.advanceCursor.col = BitVec.ofNat 7 (advance s.col.toNat s.row.toNat).1 := rfl
@[simp] theorem State.advanceCursor_row : s.advanceCursor.row = BitVec.ofNat 5 (advance s.col.toNat s.row.toNat).2 := rfl
@[simp] theorem State.advanceCursor_attr : s.advanceCursor.attr = s.attr := rfl
@[simp] theorem State.advanceCursor_curValid : s.advanceCursor.curValid = true := rfl
@[simp] theorem State.advanceCursor_attrValid : s.advanceCursor.attrValid = s.attrValid := rfl
@[simp] theorem State.advanceCursor_history : s.advanceCursor.history = s.history := rfl
@[simp] theorem State.advanceCursor_mem : s.advanceCursor.mem = s.mem := rfl
@[simp] theorem State.advanceCursor_kbdState : s.advanceCursor.kbdState = s.kbdState := rfl
@[simp] theorem State.advanceCursor_faulted : s.advanceCursor.faulted = s.faulted := rfl
@[simp] theorem State.advanceCursor_faultCode : s.advanceCursor.faultCode = s.faultCode := rfl
@[simp] theorem State.advanceCursor_faultWord : s.advanceCursor.faultWord = s.faultWord := rfl
@[simp] theorem State.advanceCursor_table : s.advanceCursor.table = s.table := rfl
@[simp] theorem State.advanceCursor_params : s.advanceCursor.params = s.params := rfl
@[simp] theorem State.advanceCursor_words : s.advanceCursor.words = s.words := rfl
@[simp] theorem State.advanceCursor_pos : s.advanceCursor.pos = s.pos := rfl
@[simp] theorem State.advanceCursor_portScript : s.advanceCursor.portScript = s.portScript := rfl
@[simp] theorem State.advanceCursor_draws : s.advanceCursor.draws = s.draws := rfl
@[simp] theorem State.advanceCursor_resets : s.advanceCursor.resets = s.resets := rfl

/-! ### State.newLine -/

@[simp] theorem State.newLine_col : s.newLine.col = 0 := rfl
@[simp] theorem State.newLine_row : s.newLine.row = BitVec.ofNat 5 (nextRow s.row.toNat) := rfl
@[simp] theorem State.newLine_attr : s.newLine.attr = s.attr := rfl
@[simp] theorem State.newLine_curValid : s.newLine.curValid = true := rfl
@[simp] theorem State.newLine_attrValid : s.newLine.attrValid = s.attrValid := rfl
@[simp] theorem State.newLine_history : s.newLine.history = s.history := rfl
@[simp] theorem State.newLine_mem : s.newLine.mem = s.mem := rfl
@[simp] theorem State.newLine_kbdState : s.newLine.kbdState = s.kbdState := rfl
@[simp] theorem State.newLine_faulted : s.newLine.faulted = s.faulted := rfl
@[simp] theorem State.newLine_faultCode : s.newLine.faultCode = s.faultCode := rfl
@[simp] theorem State.newLine_faultWord : s.newLine.faultWord = s.faultWord := rfl
@[simp] theorem State.newLine_table : s.newLine.table = s.table := rfl
@[simp] theorem State.newLine_params : s.newLine.params = s.params := rfl
@[simp] theorem State.newLine_words : s.newLine.words = s.words := rfl
@[simp] theorem State.newLine_pos : s.newLine.pos = s.pos := rfl
@[simp] theorem State.newLine_portScript : s.newLine.portScript = s.portScript := rfl
@[simp] theorem State.newLine_draws : s.newLine.draws = s.draws := rfl
@[simp] theorem State.newLine_resets : s.newLine.resets = s.resets := rfl

/-! ### State.placeWord -/

@[simp] theorem State.placeWord_col (w : Word) : (s.placeWord w).col = s.col := rfl
@[simp] theorem State.placeWord_row (w : Word) : (s.placeWord w).row = s.row := rfl
@[simp] theorem State.placeWord_attr (w : Word) : (s.placeWord w).attr = s.attr := rfl
@[simp] theorem State.placeWord_curValid (w : Word) : (s.placeWord w).curValid = s.curValid := rfl
@[simp] theorem State.placeWord_attrValid (w : Word) : (s.placeWord w).attrValid = s.attrValid := rfl
@[simp] theorem State.placeWord_history (w : Word) : (s.placeWord w).history = s.history := rfl
@[simp] theorem State.placeWord_mem (w : Word) : (s.placeWord w).mem = s.mem := rfl
@[simp] theorem State.placeWord_kbdState (w : Word) : (s.placeWord w).kbdState = s.kbdState := rfl
@[simp] theorem State.placeWord_faulted (w : Word) : (s.placeWord w).faulted = s.faulted := rfl
@[simp] theorem State.placeWord_faultCode (w : Word) : (s.placeWord w).faultCode = s.faultCode := rfl
@[simp] theorem State.placeWord_faultWord (w : Word) : (s.placeWord w).faultWord = s.faultWord := rfl
@[simp] theorem State.placeWord_table (w : Word) : (s.placeWord w).table = s.table := rfl
@[simp] theorem State.placeWord_params (w : Word) : (s.placeWord w).params = s.params := rfl
@[simp] theorem State.placeWord_words (w : Word) : (s.placeWord w).words = (s.words ++ List.replicate (s.pos + 1 - s.words.length) 0).set s.pos w := rfl
@[simp] theorem State.placeWord_pos (w : Word) : (s.placeWord w).pos = s.pos := rfl
@[simp] theorem State.placeWord_portScript (w : Word) : (s.placeWord w).portScript = s.portScript := rfl
@[simp] theorem State.placeWord_draws (w : Word) : (s.placeWord w).draws = s.draws := rfl
@[simp] theorem State.placeWord_resets (w : Word) : (s.placeWord w).resets = s.resets := rfl

/-! ### State.retire -/

@[simp] theorem State.retire_col : s.retire.col = s.col := by unfold State.retire; split <;> rfl
@[simp] theorem State.retire_row : s.retire.row = s.row := by unfold State.retire; split <;> rfl
@[simp] theorem State.retire_attr : s.retire.attr = s.attr := by unfold State.retire; split <;> rfl
@[simp] theorem State.retire_curValid : s.retire.curValid = s.curValid := by unfold State.retire; split <;> rfl
@[simp] theorem State.retire_attrValid : s.retire.attrValid = s.attrValid := by unfold State.retire; split <;> rfl
@[simp] theorem State.retire_history : s.retire.history = s.history := by unfold State.retire; split <;> rfl
@[simp] theorem State.retire_mem : s.retire.mem = s.mem := by unfold State.retire; split <;> rfl
@[simp] theorem State.retire_kbdState : s.retire.kbdState = s.kbdState := by unfold State.retire; split <;> rfl
@[simp] theorem State.retire_faulted : s.retire.faulted = s.faulted := by unfold State.retire; split <;> rfl
@[simp] theorem State.retire_faultCode : s.retire.faultCode = s.faultCode := by unfold State.retire; split <;> rfl
@[simp] theorem State.retire_faultWord : s.retire.faultWord = s.faultWord := by unfold State.retire; split <;> rfl
@[simp] theorem State.retire_table : s.retire.table = s.table := by unfold State.retire; split <;> rfl
@[simp] theorem State.retire_params : s.retire.params = s.params := by unfold State.retire; split <;> rfl
@[simp] theorem State.retire_words : s.retire.words = s.words := by unfold State.retire; split <;> rfl
theorem State.retire_pos : s.retire.pos = if s.faulted then s.pos else s.pos + 1 := by
  unfold State.retire; split <;> rfl
@[simp] theorem State.retire_portScript : s.retire.portScript = s.portScript := by unfold State.retire; split <;> rfl
@[simp] theorem State.retire_draws : s.retire.draws = s.draws := by unfold State.retire; split <;> rfl
@[simp] theorem State.retire_resets : s.retire.resets = s.resets := by unfold State.retire; split <;> rfl

end Sys2Proof.Machine
end

