-- ==== Sys2Proof/Laws/Ops.lean ====
section
/-! SUPPORT. What each shared operation can do: the history replayed, the cursor after a move, and the cases of `emit`,
`dispatchKey`, `issue` and `step`. -/

namespace Sys2Proof.Machine

/-! ### The history -/

@[simp] theorem replay_append (m : Memory) (es fs : List Event) : replay m (es ++ fs) = replay (replay m es) fs := by
  induction es generalizing m with
  | nil => rfl
  | cons e rest ih => cases e <;> exact ih _

/-- A repaint of a canonical memory is its 2000 framebuffer writes, one after the other. -/
theorem replay_fillEvents {m : Memory} (h : m.wf) (v : CellWord) : replay m (fillEvents v) = fillCells m v := by
  have key : ∀ (is : List Nat) (m : Memory), replay m (is.map fun i => .memWrite (indexAddr i) v)
      = is.foldl (fun m i => writeCell m (indexAddr i) v) m := by
    intro is
    induction is with
    | nil => intro m; rfl
    | cons i rest ih => intro m; exact ih _
  rw [fillEvents, key, fillCells_eq_loop h, loopFirst]

/-- Every event of a repaint writes a cell of the framebuffer. -/
theorem fillEvents_legal (v : CellWord) : ∀ e ∈ fillEvents v, e.legal := by
  intro e he
  rw [fillEvents] at he
  obtain ⟨i, hi, rfl⟩ := List.mem_map.mp he
  exact ⟨i, List.mem_range.mp hi, rfl⟩

/-! ### The cursor -/

theorem State.advanceCursor_col_toNat {s : State} (hc : s.col.toNat < Config.width) (hr : s.row.toNat < Config.height) :
    s.advanceCursor.col.toNat = (advance s.col.toNat s.row.toNat).1 := by
  have h := (advance_lt hc hr).1
  simp only [Config.width] at h
  simp only [State.advanceCursor_col, BitVec.toNat_ofNat]
  omega

theorem State.advanceCursor_row_toNat {s : State} (hc : s.col.toNat < Config.width) (hr : s.row.toNat < Config.height) :
    s.advanceCursor.row.toNat = (advance s.col.toNat s.row.toNat).2 := by
  have h := (advance_lt hc hr).2
  simp only [Config.height] at h
  simp only [State.advanceCursor_row, BitVec.toNat_ofNat]
  omega

theorem State.newLine_row_toNat {s : State} (hr : s.row.toNat < Config.height) :
    s.newLine.row.toNat = nextRow s.row.toNat := by
  have h := nextRow_lt hr
  simp only [Config.height] at h
  simp only [State.newLine_row, BitVec.toNat_ofNat]
  omega

/-! ### emit and dispatchKey -/

/-- Everything `emit` can do: a line break, a glyph, or UNINIT. -/
theorem State.emit_cases (s : State) (w : Word) (c : Byte) :
    (s.breaksLine c = true ∧ s.curValid = true ∧ s.emit w c = s.newLine) ∨
    (s.breaksLine c = true ∧ s.curValid = false ∧ s.emit w c = s.raise .uninit w) ∨
    (s.breaksLine c = false ∧ s.consoleWritten = true ∧
      s.emit w c = (s.memWrite s.cursorAddr (pack c s.attr)).advanceCursor) ∨
    (s.breaksLine c = false ∧ s.consoleWritten = false ∧ s.emit w c = s.raise .uninit w) := by
  unfold State.emit
  cases hb : s.breaksLine c <;> cases hv : s.curValid <;> cases hw : s.consoleWritten <;> simp

@[simp] theorem State.consoleWritten_iff (s : State) :
    s.consoleWritten = true ↔ s.curValid = true ∧ s.attrValid = true := by
  simp [State.consoleWritten]

/-- Under GLYPH no byte breaks the line. -/
theorem State.breaksLine_glyph {s : State} (h : s.params.lfPolicy = .glyph) (c : Byte) : s.breaksLine c = false := by
  simp [State.breaksLine, h]

@[simp] theorem State.portByte_setKbd (s : State) (k : KbdState) (p : Port) :
    (s.setKbd k).portByte p = s.portByte p := rfl

/-- The state after the data read of KPOLL, the driver idle again. -/
def State.afterData (s : State) : State := (s.afterRead Config.kbdDataPort).setKbd .idle

/-- Everything `dispatchKey` can do: drop the byte, or emit the character it decodes to. -/
theorem State.dispatchKey_cases (s : State) (w : Word) :
    (decodeSc s.table (s.portByte Config.kbdDataPort) = none ∧ s.dispatchKey w = s.afterData) ∨
    (∃ c, decodeSc s.table (s.portByte Config.kbdDataPort) = some c ∧ s.dispatchKey w = s.afterData.emit w c) := by
  unfold State.dispatchKey
  cases hd : decodeSc s.table (s.portByte Config.kbdDataPort) with
  | none => exact .inl ⟨rfl, by simp only [State.portByte_setKbd, hd]; rfl⟩
  | some c => exact .inr ⟨c, rfl, by simp only [State.portByte_setKbd, hd]; rfl⟩

/-! ### issue and step -/

theorem State.issue_of_faulted {s : State} (h : s.faulted = true) : s.issue = .stuck := by
  simp [State.issue, h]

theorem State.issue_of_none {s : State} (h : s.faulted = false) (hf : s.fetch = none) : s.issue = .waiting := by
  simp [State.issue, h, hf]

theorem State.issue_of_error {s : State} {w : Word} {r : Reject} (h : s.faulted = false) (hf : s.fetch = some w)
    (hd : decode w = .error r) : s.issue = .illegal w := by
  simp [State.issue, h, hf, hd]

theorem State.issue_of_ok {s : State} {w : Word} {i : Instr} (h : s.faulted = false) (hf : s.fetch = some w)
    (hd : decode w = .ok i) : s.issue = .command i := by
  simp [State.issue, h, hf, hd]

/-- Everything a step that goes on can do: wait, raise ILLEGAL, or execute the next command. -/
theorem step_cases {s t : State} (h : step s = .next t) :
    s.faulted = false ∧
    ((s.fetch = none ∧ t = s) ∨
     (∃ w r, s.fetch = some w ∧ decode w = .error r ∧ t = s.raise .illegal w) ∨
     (∃ w i u, s.fetch = some w ∧ decode w = .ok i ∧ exec i s = .next u ∧ t = u.retire)) := by
  cases hfa : s.faulted with
  | true => simp [step, State.issue_of_faulted hfa] at h
  | false =>
    refine ⟨rfl, ?_⟩
    cases hf : s.fetch with
    | none =>
      simp only [step, State.issue_of_none hfa hf, Host.Outcome.next.injEq] at h
      exact .inl ⟨rfl, h.symm⟩
    | some w =>
      cases hd : decode w with
      | error r =>
        simp only [step, State.issue_of_error hfa hf hd, Host.Outcome.next.injEq] at h
        exact .inr (.inl ⟨w, r, rfl, hd, h.symm⟩)
      | ok i =>
        simp only [step, State.issue_of_ok hfa hf hd] at h
        refine .inr (.inr ⟨w, i, ?_⟩)
        cases hx : exec i s with
        | next u =>
          rw [hx] at h
          exact ⟨u, rfl, hd, rfl, (Host.Outcome.next.inj h).symm⟩
        | fault r => rw [hx] at h; cases h
        | refused r => rw [hx] at h; cases h

/-! ### Runs -/

@[simp] theorem runFor_zero (s : State) : runFor 0 s = .next s := rfl

/-- A run of `n + 1` steps, by its first step. -/
theorem runFor_succ (n : Nat) (s : State) :
    runFor (n + 1) s = match step s with
      | .next t => runFor n t
      | .fault r => .fault r
      | .refused r => .refused r := by
  have h : Sys2Proof.core.step s = step s := rfl
  simp only [runFor, Host.Core.run]
  rw [h]
  cases step s <;> rfl

/-- A run of `n + 1` steps, by its last step. -/
theorem runFor_succ_right {n : Nat} {s t : State} (h : runFor n s = .next t) : runFor (n + 1) s = step t := by
  induction n generalizing s with
  | zero =>
    cases h
    rw [runFor_succ]
    cases step t <;> rfl
  | succ n ih =>
    rw [runFor_succ] at h ⊢
    cases hs : step s with
    | next u => rw [hs] at h; exact ih h
    | fault r => rw [hs] at h; cases h
    | refused r => rw [hs] at h; cases h

end Sys2Proof.Machine
end

