-- ==== Sys2Proof/Laws/Exec.lean ====
section
/-! SUPPORT. Everything a command can do, said once: the states `exec` can answer with. -/

namespace Sys2Proof.Machine

/-- The state after KPOLL's status read. -/
def State.polled (s : State) : State := s.afterRead Config.kbdStatusPort

theorem execKpoll_notReady {s : State} (h : dataReady s.statusByte = false) : execKpoll s = .next s.polled := by
  have h' : dataReady (s.portByte Config.kbdStatusPort) = false := h
  simp only [execKpoll, h']
  rfl

theorem execKpoll_drop {s : State} (h : dataReady s.statusByte = true) (hd : decodeSc s.table s.dataByte = none) :
    execKpoll s = .next s.polled.afterData := by
  have h' : dataReady (s.portByte Config.kbdStatusPort) = true := h
  rcases s.polled.dispatchKey_cases (encode .kpoll) with hk | ⟨c, hk, -⟩
  · simp only [execKpoll, h', if_true]
    exact congrArg _ hk.2
  · rw [show decodeSc s.table s.dataByte = some c from hk] at hd
    cases hd

theorem execKpoll_forward {s : State} {c : Byte} (h : dataReady s.statusByte = true)
    (hd : decodeSc s.table s.dataByte = some c) :
    execKpoll s = .next (s.polled.afterData.emit (encode .kpoll) c) := by
  have h' : dataReady (s.portByte Config.kbdStatusPort) = true := h
  rcases s.polled.dispatchKey_cases (encode .kpoll) with hk | ⟨c', hk, hk'⟩
  · rw [show decodeSc s.table s.dataByte = none from hk.1] at hd
    cases hd
  · rw [show decodeSc s.table s.dataByte = some c' from hk] at hd
    cases hd
    simp only [execKpoll, h', if_true]
    exact congrArg _ hk'

/-- What `exec i s` answers: one case for each way a command can end. -/
inductive Effect (s : State) : Instr → State → Prop where
  | init : Effect s .init
      (((s.setCursor 0 0).setAttr Config.defaultAttr).repaint (pack Config.fillChar Config.defaultAttr))
  | clear (a : Byte) (h : s.clearAttr = some a) :
      Effect s .clear ((s.repaint (pack Config.fillChar a)).setCursor 0 0)
  | clearUninit (h : s.clearAttr = none) : Effect s .clear (s.raise .uninit (encode .clear))
  | setcolor (a : Byte) : Effect s (.setcolor a) (s.setAttr a)
  | putcat (c a : Byte) (x : Col) (y : Row) (h : coordsLegal x y = true) :
      Effect s (.putcat c a x y) (s.memWrite (cellAddr x.toNat y.toNat) (pack c a))
  | putcatCoord (c a : Byte) (x : Col) (y : Row) (h : coordsLegal x y = false) :
      Effect s (.putcat c a x y) (s.raise .coord (encode (.putcat c a x y)))
  | putc (c : Byte) : Effect s (.putc c) (s.emit (encode (.putc c)) c)
  | setcur (x : Col) (y : Row) (h : coordsLegal x y = true) : Effect s (.setcur x y) (s.setCursor x y)
  | setcurCoord (x : Col) (y : Row) (h : coordsLegal x y = false) :
      Effect s (.setcur x y) (s.raise .coord (encode (.setcur x y)))
  | kpollIdle (h : dataReady s.statusByte = false) : Effect s .kpoll s.polled
  | kpollDrop (h : dataReady s.statusByte = true) (hd : decodeSc s.table s.dataByte = none) :
      Effect s .kpoll s.polled.afterData
  | kpollForward (c : Byte) (h : dataReady s.statusByte = true) (hd : decodeSc s.table s.dataByte = some c) :
      Effect s .kpoll (s.polled.afterData.emit (encode .kpoll) c)

/-- `exec` answers one of the effects, and nothing else. -/
theorem exec_effect {i : Instr} {s t : State} (h : exec i s = .next t) : Effect s i t := by
  cases i with
  | init => cases h; exact .init
  | clear =>
    cases hc : s.clearAttr with
    | some a => simp only [exec, execClear, hc] at h; cases h; exact .clear a hc
    | none => simp only [exec, execClear, hc] at h; cases h; exact .clearUninit hc
  | setcolor a => cases h; exact .setcolor a
  | putcat c a x y =>
    cases hl : coordsLegal x y with
    | true => simp only [exec, execPutcat, hl, if_true] at h; cases h; exact .putcat c a x y hl
    | false =>
      simp only [exec, execPutcat, hl, Bool.false_eq_true, if_false] at h; cases h; exact .putcatCoord c a x y hl
  | putc c => cases h; exact .putc c
  | setcur x y =>
    cases hl : coordsLegal x y with
    | true => simp only [exec, execSetcur, hl, if_true] at h; cases h; exact .setcur x y hl
    | false => simp only [exec, execSetcur, hl, Bool.false_eq_true, if_false] at h; cases h; exact .setcurCoord x y hl
  | kpoll =>
    cases hr : dataReady s.statusByte with
    | false => rw [exec, execKpoll_notReady hr] at h; cases h; exact .kpollIdle hr
    | true =>
      cases hd : decodeSc s.table s.dataByte with
      | none => rw [exec, execKpoll_drop hr hd] at h; cases h; exact .kpollDrop hr hd
      | some c => rw [exec, execKpoll_forward hr hd] at h; cases h; exact .kpollForward c hr hd

/-- The events of KPOLL's two reads. -/
theorem State.afterData_polled_history (s : State) :
    s.polled.afterData.history
      = s.history ++ [.ioRead Config.kbdStatusPort s.statusByte, .ioRead Config.kbdDataPort s.dataByte] := by
  simp [State.polled, State.afterData, State.statusByte, State.dataByte]

end Sys2Proof.Machine
end

