-- ==== Sys2Proof/Laws/PerInstr.lean ====
section
/-! SUPPORT. Statements made command by command: the OP of a command's word is the number 30_encoding.md R73 gives it. -/

namespace Sys2Proof.Laws.Opcode

/-- The OP numbers of R73. -/
def number : Instr → BitVec 4
  | .init => 0x1
  | .clear => 0x2
  | .setcolor _ => 0x3
  | .putcat _ _ _ _ => 0x4
  | .putc _ => 0x5
  | .setcur _ _ => 0x6
  | .kpoll => 0x7

/-- The word of `i` carries its number in bits 31:28. -/
def Statement (i : Instr) : Prop := opField (encode i) = number i

theorem init : Statement .init := opField_commandWord _ _ _ _ _
theorem clear : Statement .clear := opField_commandWord _ _ _ _ _
theorem setcolor (a : Byte) : Statement (.setcolor a) := opField_commandWord _ _ _ _ _
theorem putcat (c a : Byte) (x : Col) (y : Row) : Statement (.putcat c a x y) := opField_commandWord _ _ _ _ _
theorem putc (c : Byte) : Statement (.putc c) := opField_commandWord _ _ _ _ _
theorem setcur (x : Col) (y : Row) : Statement (.setcur x y) := opField_commandWord _ _ _ _ _
theorem kpoll : Statement .kpoll := opField_commandWord _ _ _ _ _

end Sys2Proof.Laws.Opcode
end

