-- ==== Sys2Proof/Tests/Slice0.lean ====
section
/-! SUPPORT. Tests on fixed values, each from a vector of 95_test_vectors.md or an example of a rule, and, for every
statement with hypotheses, a witness: a concrete state and operands that meet them together. -/

open Sys2Proof Sys2Proof.Machine

namespace Sys2Proof.Tests

/-! ### Small states -/

/-- The registers as INIT leaves them, no cell written. -/
def ready : State := { State.reset with curValid := true, attr := 0x0F, attrValid := true }

/-- `ready` with the cursor at column `x`, row `y`. -/
def readyAt (x : Col) (y : Row) : State := { ready with col := x, row := y }

/-- `s` under LF_POLICY = NEWLINE. -/
def underNewline (s : State) : State := { s with params := { s.params with lfPolicy := .newline } }

/-- `s` under CLEAR_FILL = DEFAULT. -/
def underDefault (s : State) : State := { s with params := { s.params with clearFill := .default } }

/-- `s` with these port bytes to come. -/
def polling (s : State) (script : List Byte) : State := { s with portScript := script }

/-- `s` faulted with COORD. -/
def faultedState : State := { ready with faulted := true, faultCode := .coord, faultWord := some 0x60500000 }

/-- The state of an outcome, if it is a next state. -/
def nextOf : Host.Outcome State Fault Refusal → Option State
  | .next t => some t
  | .fault _ => none
  | .refused _ => none

/-- The state after a command that has one, else the state before. -/
def after (i : Instr) (s : State) : State := (nextOf (exec i s)).getD s

/-- Character and attribute of the cell of linear index `i`. -/
def cellOf (s : State) (i : Nat) : Option Byte × Option Byte :=
  (readByte s.mem (0xB8000 + 2 * i), readByte s.mem (0xB8000 + 2 * i + 1))

/-- The decoded command, if the word spells one. -/
def decodeOk (w : Word) : Option Instr := (decode w).toOption

/-! ### Well-formedness (30_encoding.md R71, 70_reset_and_hazards.md R186) -/

theorem test_wellFormed_limits :
    (Instr.putcat 0 0 79 24).wellFormed = true ∧ (Instr.setcur 79 24).wellFormed = true ∧
    Instr.init.wellFormed = true ∧ Instr.clear.wellFormed = true ∧ (Instr.setcolor 0xFF).wellFormed = true ∧
    (Instr.putc 0xFF).wellFormed = true ∧ Instr.kpoll.wellFormed = true := by decide

theorem test_wellFormed_refuses_column :
    (Instr.putcat 0x41 0x0F 80 0).wellFormed = false ∧ (Instr.setcur 80 0).wellFormed = false := by decide

theorem test_wellFormed_refuses_row :
    (Instr.putcat 0x41 0x0F 0 25).wellFormed = false ∧ (Instr.setcur 0 25).wellFormed = false := by decide

/-! ### Decoding (95_test_vectors.md 2.1; words written out from the patterns of 30_encoding.md R74) -/

theorem test_decode_init : decodeOk 0b0001_00000_0000000_00000000_00000000 = some .init := by decide
theorem test_decode_clear : decodeOk 0b0010_00000_0000000_00000000_00000000 = some .clear := by decide
theorem test_decode_setcolor :
    decodeOk 0b0011_00000_0000000_00011111_00000000 = some (.setcolor 0x1F) := by decide
theorem test_decode_putcat :
    decodeOk 0b0100_11000_1001111_00001111_01011000 = some (.putcat 0x58 0x0F 79 24) := by decide
theorem test_decode_putc : decodeOk 0b0101_00000_0000000_00000000_01001000 = some (.putc 0x48) := by decide
theorem test_decode_setcur : decodeOk 0b0110_11000_1001111_00000000_00000000 = some (.setcur 79 24) := by decide
theorem test_decode_kpoll : decodeOk 0b0111_00000_0000000_00000000_00000000 = some .kpoll := by decide

theorem test_decode_out_of_range_words :
    decodeOk 0x4FFFFFFF = some (.putcat 0xFF 0xFF 127 31) ∧ decodeOk 0x60500000 = some (.setcur 80 0) ∧
    decodeOk 0x6C800000 = some (.setcur 0 25) := by decide

theorem test_decode_illegal_words :
    decodeOk 0x00000000 = none ∧ decodeOk 0x80000000 = none ∧ decodeOk 0xFFFFFFFF = none ∧
    decodeOk 0x10000001 = none ∧ decodeOk 0x2000FF00 = none ∧ decodeOk 0x30001F01 = none ∧
    decodeOk 0x30800000 = none ∧ decodeOk 0x50000F48 = none ∧ decodeOk 0x6C4F0001 = none ∧
    decodeOk 0x70000080 = none := by decide

theorem test_decodeTableWord_rows :
    decodeTableWord 32 0x10000000 = some .init ∧ decodeTableWord 32 0x20000000 = some .clear ∧
    decodeTableWord 32 0x30000000 = some (.setcolor 0) ∧ decodeTableWord 32 0x40000000 = some (.putcat 0 0 0 0) ∧
    decodeTableWord 32 0x50000000 = some (.putc 0) ∧ decodeTableWord 32 0x60000000 = some (.setcur 0 0) ∧
    decodeTableWord 32 0x70000000 = some .kpoll ∧ decodeTableWord 32 0 = none := by decide

theorem test_encode_words :
    encode .init = 0x10000000 ∧ encode .clear = 0x20000000 ∧ encode (.setcolor 0x1F) = 0x30001F00 ∧
    encode (.putcat 0x51 0x4E 0 1) = 0x40804E51 ∧ encode (.putc 0x5A) = 0x5000005A ∧
    encode (.setcur 78 24) = 0x6C4E0000 ∧ encode .kpoll = 0x70000000 := by decide

/-! ### Shared functions (95_test_vectors.md 2.2, 2.3) -/

theorem test_pack : pack 0x48 0x0F = 0x0F48 ∧ pack 0 0 = 0 ∧ pack 0xFF 0xFF = 0xFFFF ∧ pack 0x41 0x1F = 0x1F41 := by
  decide

theorem test_makeAttr :
    makeAttr 15 0 = 0x0F ∧ makeAttr 4 1 = 0x14 ∧ makeAttr 0 15 = 0xF0 ∧ makeAttr 15 15 = 0xFF := by decide

theorem test_cellAddr :
    cellAddr 0 0 = 0xB8000 ∧ cellAddr 79 0 = 0xB809E ∧ cellAddr 0 1 = 0xB80A0 ∧ cellAddr 40 12 = 0xB87D0 ∧
    cellAddr 0 24 = 0xB8F00 ∧ cellAddr 79 24 = 0xB8F9E := by decide

theorem test_advance :
    advance 0 0 = (1, 0) ∧ advance 78 0 = (79, 0) ∧ advance 79 0 = (0, 1) ∧ advance 5 24 = (6, 24) ∧
    advance 79 23 = (0, 24) ∧ advance 79 24 = (0, 0) := by decide

theorem test_faultCode_values :
    FaultCode.none.value = 0 ∧ FaultCode.illegal.value = 1 ∧ FaultCode.coord.value = 2 ∧ FaultCode.uninit.value = 3 := by
  decide

/-- The listed entries, a release, F1, F9 and left shift (W6, W9). -/
theorem test_decodeSc :
    decodeSc State.reset.table 30 = some 0x61 ∧ decodeSc State.reset.table 28 = some 0x0A ∧
    decodeSc State.reset.table 57 = some 0x20 ∧ decodeSc State.reset.table 0x9E = none ∧
    decodeSc State.reset.table 0xFF = none ∧ decodeSc State.reset.table 59 = none ∧
    decodeSc State.reset.table 67 = none ∧ decodeSc State.reset.table 42 = none := by decide

/-! ### The console commands (95_test_vectors.md 2.4-2.7) -/

/-- INIT over a cell that held something else: the first and the last cell 0x0F20. -/
theorem test_init_cells :
    cellOf (after .init (after (.putcat 0x51 0x4E 0 0) State.reset)) 0 = (some 0x20, some 0x0F) ∧
    cellOf (after .init (after (.putcat 0x51 0x4E 0 0) State.reset)) 1999 = (some 0x20, some 0x0F) := by
  decide +kernel

theorem test_init_registers :
    (after .init { readyAt 5 3 with attr := 0x1F }).col = 0 ∧ (after .init { readyAt 5 3 with attr := 0x1F }).row = 0 ∧
    (after .init { readyAt 5 3 with attr := 0x1F }).attr = 0x0F ∧ (after .init State.reset).curValid = true ∧
    (after .init State.reset).attrValid = true := by decide

/-- SETCOLOR 0x1F; CLEAR: 0x1F20 under CURRENT, 0x0F20 under DEFAULT, the attribute kept under both. -/
theorem test_clear_fill :
    ({ ready with attr := 0x1F } : State).clearAttr = some 0x1F ∧
    (underDefault { ready with attr := 0x1F }).clearAttr = some 0x0F ∧
    (after .clear { readyAt 10 10 with attr := 0x1F }).attr = 0x1F ∧ (after .clear (readyAt 10 10)).col = 0 ∧
    (after .clear (readyAt 10 10)).row = 0 ∧ (after .clear (underDefault State.reset)).attrValid = false ∧
    (after .clear (underDefault State.reset)).curValid = true := by decide

/-- From reset, CLEAR under CURRENT: UNINIT, nothing written, the cursor still unwritten. -/
theorem test_clear_uninit :
    (after .clear State.reset).faultCode = .uninit ∧ (after .clear State.reset).mem = [] ∧
    (after .clear State.reset).curValid = false ∧ (after .clear State.reset).faultWord = some 0x20000000 := by decide

theorem test_setcolor :
    (after (.setcolor 0xFF) State.reset).attr = 0xFF ∧ (after (.setcolor 0) State.reset).attrValid = true ∧
    (after (.setcolor 0) ready).mem = [] := by decide

/-- SETCOLOR 0x2A; SETCUR 0, 0; PUTC 'b' from reset. -/
theorem test_setcolor_then_putc :
    cellOf (after (.putc 0x62) (after (.setcur 0 0) (after (.setcolor 0x2A) State.reset))) 0 = (some 0x62, some 0x2A) ∧
    (after (.putc 0x62) (after (.setcur 0 0) (after (.setcolor 0x2A) State.reset))).faulted = false := by decide

theorem test_putcat_cells :
    cellOf (after (.putcat 0x41 0x1E 0 0) State.reset) 0 = (some 0x41, some 0x1E) ∧
    cellOf (after (.putcat 0x58 0x0F 79 24) ready) 1999 = (some 0x58, some 0x0F) ∧
    cellOf (after (.putcat 0x0A 0x0F 5 0) (underNewline ready)) 5 = (some 0x0A, some 0x0F) ∧
    (after (.putcat 0x58 0x0F 79 24) (readyAt 3 0)).col = 3 := by decide

theorem test_putcat_coord :
    (after (.putcat 0x41 0x0F 80 0) ready).faultCode = .coord ∧ (after (.putcat 0x41 0x0F 80 0) ready).mem = [] ∧
    (after (.putcat 0x41 0x0F 0 25) ready).faultCode = .coord ∧
    (after (.putcat 0xFF 0xFF 127 31) ready).faultWord = some 0x4FFFFFFF ∧
    (after (.putcat 0x41 0x0F 80 0) State.reset).faultCode = .coord := by decide

/-- A glyph at (0,0), a line feed under GLYPH, the two wraps, and UNINIT with either register unwritten. -/
theorem test_putc_glyphs :
    cellOf (after (.putc 0x48) ready) 0 = (some 0x48, some 0x0F) ∧ (after (.putc 0x48) ready).col = 1 ∧
    cellOf (after (.putc 0x0A) ready) 0 = (some 0x0A, some 0x0F) ∧
    cellOf (after (.putc 0x65) (readyAt 79 0)) 79 = (some 0x65, some 0x0F) ∧
    (after (.putc 0x65) (readyAt 79 0)).row = 1 ∧ (after (.putc 0x65) (readyAt 79 0)).col = 0 ∧
    cellOf (after (.putc 0x65) (readyAt 79 24)) 1999 = (some 0x65, some 0x0F) ∧
    (after (.putc 0x65) (readyAt 79 24)).row = 0 ∧
    (after (.putc 0x61) (after (.setcur 0 0) State.reset)).faultCode = .uninit ∧
    (after (.putc 0x61) (after (.setcolor 0x0F) State.reset)).faultCode = .uninit := by decide

/-- PUTC 0x0A under NEWLINE at (5,3) and (5,24): no write; it needs the cursor and not the attribute. -/
theorem test_putc_newline :
    (after (.putc 0x0A) (underNewline (readyAt 5 3))).row = 4 ∧
    (after (.putc 0x0A) (underNewline (readyAt 5 3))).col = 0 ∧
    (after (.putc 0x0A) (underNewline (readyAt 5 3))).mem = [] ∧
    (after (.putc 0x0A) (underNewline (readyAt 5 24))).row = 0 ∧
    (after (.putc 0x0A) (underNewline { readyAt 5 3 with attrValid := false })).faulted = false ∧
    (after (.putc 0x0A) (underNewline State.reset)).faultCode = .uninit ∧
    (after (.putc 0x0D) (underNewline (readyAt 5 3))).col = 6 := by decide

theorem test_setcur :
    (after (.setcur 79 24) State.reset).col = 79 ∧ (after (.setcur 79 24) State.reset).row = 24 ∧
    (after (.setcur 79 24) State.reset).curValid = true ∧ (after (.setcur 79 24) State.reset).attrValid = false := by
  decide

theorem test_setcur_coord :
    (after (.setcur 80 0) ready).faultCode = .coord ∧ (after (.setcur 80 0) ready).col = 0 ∧
    (after (.setcur 0 25) ready).faultCode = .coord ∧ (after (.setcur 127 31) ready).faultWord = some 0x6FFF0000 := by
  decide

/-! ### KPOLL (95_test_vectors.md 2.8, W2, W3) -/

theorem test_kpoll_forwards :
    (after .kpoll (polling ready [0x01, 0x1E])).history
      = [.ioRead 0x64 0x01, .ioRead 0x60 0x1E, .memWrite 0xB8000 0x0F61] ∧
    (after .kpoll (polling ready [0x01, 0x1E])).col = 1 ∧
    cellOf (after .kpoll (polling ready [0xFF, 0x1E])) 0 = (some 0x61, some 0x0F) ∧
    cellOf (after .kpoll (polling (readyAt 79 24) [0x01, 0x1E])) 1999 = (some 0x61, some 0x0F) ∧
    (after .kpoll (polling (underNewline ready) [0x01, 0x1C])).row = 1 ∧
    (after .kpoll (polling State.reset [0x01, 0x1E])).faultCode = .uninit ∧
    (after .kpoll (polling State.reset [0x01, 0x1E])).history = [.ioRead 0x64 0x01, .ioRead 0x60 0x1E] := by decide

theorem test_kpoll_drops :
    (after .kpoll (polling ready [0xFE, 0x1E])).history = [.ioRead 0x64 0xFE] ∧
    (after .kpoll (polling ready [0xFE, 0x1E])).portScript = [0x1E] ∧
    (after .kpoll (polling ready [0x01, 0x9E])).history = [.ioRead 0x64 0x01, .ioRead 0x60 0x9E] ∧
    (after .kpoll (polling ready [0x01, 0x80])).mem = [] ∧ (after .kpoll (polling ready [0x01, 0xE0])).mem = [] ∧
    (after .kpoll (polling ready [0x01, 0x3B])).mem = [] ∧ (after .kpoll (polling ready [0x01, 0x2A])).col = 0 ∧
    (after .kpoll (polling State.reset [0x01, 0x9E])).faulted = false := by decide

/-! ### Steps (95_test_vectors.md 2.9, Program 6) -/

theorem test_step_runs_placed_word :
    ((nextOf (step (State.reset.withFetchWord 32 0x30001F00))).map fun t => (t.attr, t.pos)) = some (0x1F, 1) := by
  decide

theorem test_step_illegal_before_uninit :
    ((nextOf (step (State.reset.withFetchWord 32 0x50000F48))).map fun t => (t.faultCode, t.pos)) = some (.illegal, 0) := by
  decide

theorem test_step_after_fault_is_stuck : nextOf (step (faultedState.withFetchWord 32 0x10000000)) = none := by decide

/-! ### The assembler (30_encoding.md R78-R83; 95_test_vectors.md section 3) -/

theorem test_assemble_commands :
    assembleLine "PUTCAT 'Q', 0x4E, 0, 1   ; 0x40804E51".toList = some [0x40804E51] ∧
    assembleLine "SETCOLOR ATTR(15, 1)".toList = some [0x30001F00] ∧
    assembleLine "SETCUR 79, 0".toList = some [0x604F0000] ∧ assembleLine "PUTC '\\n'".toList = some [0x5000000A] ∧
    assembleLine "PUTC '\\xDB'".toList = some [0x500000DB] ∧ assembleLine "KPOLL".toList = some [0x70000000] ∧
    assembleLine "INIT ; start".toList = some [0x10000000] ∧ assembleLine ".word 0x50000F48".toList = some [0x50000F48] := by
  decide +kernel

theorem test_assemble_pseudo_commands :
    assembleLine "WRITE \"ab\"".toList = some [0x50000061, 0x50000062] ∧
    assembleLine "WRITE 0x00, 255".toList = some [0x50000000, 0x500000FF] ∧
    assembleLine "WRITESTR \"Hi\\0yo\"".toList = some [0x50000048, 0x50000069] ∧
    assembleLine "WRITESTRAT \"A\", 1, 2".toList = some [0x61010000, 0x50000041] ∧
    assemble ["CLEAR".toList, "".toList, "PUTC 0x7A".toList] = some [0x20000000, 0x5000007A] := by
  decide +kernel

theorem test_assemble_refusals :
    assembleLine "PUTC 256".toList = none ∧ assembleLine "SETCUR 128, 0".toList = none ∧
    assembleLine "SETCUR 0, 32".toList = none ∧ assembleLine "SETCUR 127, 31".toList = some [0x6FFF0000] ∧
    assembleLine "SETCOLOR ATTR(16, 0)".toList = none ∧ assembleLine "NOP".toList = none ∧
    assembleLine "INIT 1".toList = none := by
  decide +kernel

/-! ### Witnesses: the hypotheses of each statement, met together -/

/-- `ready` with a run of these words. -/
def running (ws : List Word) : State := ready.loadRun ws []

theorem witness_EncodeOfDecode : decode 0x4C4F0F58 = .ok (.putcat 0x58 0x0F 79 24) := by decide

/-- A word for each mask, and one that meets none. -/
theorem witness_WordsDecodeByMaskAndMatch :
    (0x10000000 : Word) &&& 0xFFFFFFFF = 0x10000000 ∧ (0x20000000 : Word) &&& 0xFFFFFFFF = 0x20000000 ∧
    (0x3000FF00 : Word) &&& 0xFFFF00FF = 0x30000000 ∧ (0x4FFFFFFF : Word) &&& 0xF0000000 = 0x40000000 ∧
    (0x500000FF : Word) &&& 0xFFFFFF00 = 0x50000000 ∧ (0x6FFF0000 : Word) &&& 0xF000FFFF = 0x60000000 ∧
    (0x70000000 : Word) &&& 0xFFFFFFFF = 0x70000000 ∧
    ((0x10000001 : Word) &&& 0xFFFFFFFF ≠ 0x10000000 ∧ (0x10000001 : Word) &&& 0xFFFFFFFF ≠ 0x20000000 ∧
      (0x10000001 : Word) &&& 0xFFFF00FF ≠ 0x30000000 ∧ (0x10000001 : Word) &&& 0xF0000000 ≠ 0x40000000 ∧
      (0x10000001 : Word) &&& 0xFFFFFF00 ≠ 0x50000000 ∧ (0x10000001 : Word) &&& 0xF000FFFF ≠ 0x60000000 ∧
      (0x10000001 : Word) &&& 0xFFFFFFFF ≠ 0x70000000) := by decide

theorem witness_StepRunsDecodedCommand :
    (running [0x50000048]).faulted = false ∧ (running [0x50000048]).words[(running [0x50000048]).pos]? = some 0x50000048 ∧
    decode 0x50000048 = .ok (.putc 0x48) := by decide

theorem witness_IllegalWordFaults :
    (running [0x50000F48]).faulted = false ∧ (running [0x50000F48]).words[(running [0x50000F48]).pos]? = some 0x50000F48 ∧
    decode 0x50000F48 = .error (.reservedField 5) := by decide

theorem witness_FaultedBlockIsStuck : faultedState.faulted = true := by decide

/-- A step that does not fault, one that does, and a completed run. -/
theorem witness_PositionFollowsCommands :
    (step (running [0x50000048]) = .next (after (.putc 0x48) (running [0x50000048])).retire ∧
      (running [0x50000048]).pos < (running [0x50000048]).words.length ∧
      (after (.putc 0x48) (running [0x50000048])).retire.faulted = false) ∧
    (step (running [0x60500000]) = .next (after (.setcur 80 0) (running [0x60500000])).retire ∧
      (running [0x60500000]).pos < (running [0x60500000]).words.length ∧
      (after (.setcur 80 0) (running [0x60500000])).retire.faulted = true) ∧
    Completed (running []) :=
  ⟨⟨rfl, by decide, by decide⟩, ⟨rfl, by decide, by decide⟩, by decide, by decide⟩

theorem witness_ResetLeavesBlockUnwritten : faultedState.faulted = true := by decide

/-- Reset with a run loaded meets the invariant, and steps. -/
theorem witness_StepKeepsInvariant :
    Inv (State.reset.loadRun [0x60010000] []) ∧
    step (State.reset.loadRun [0x60010000] [])
      = .next (after (.setcur 1 0) (State.reset.loadRun [0x60010000] [])).retire :=
  ⟨⟨fun h => (Bool.noConfusion h), .nil, fun _ h => (List.not_mem_nil h).elim, rfl,
    fun _ h => (List.not_mem_nil h).elim, rfl, by decide, by decide⟩, rfl⟩

theorem witness_ReadyConsoleNeverUninit :
    ConsoleReady (running [0x50000048]) ∧
    step (running [0x50000048]) = .next (after (.putc 0x48) (running [0x50000048])).retire ∧
    (running [0x50000048]).faultCode = .none := ⟨⟨by decide, by decide⟩, rfl, by decide⟩

/-- INIT; CLEAR with both registers written; a step of a painted block. -/
theorem witness_PaintedFramebufferStaysWritten :
    exec .init ready = .next (after .init ready) ∧
    (ready.faulted = false ∧ exec .clear ready = .next (after .clear ready) ∧ (after .clear ready).faulted = false) ∧
    (AllCellsWritten (after .init (running [0x50000048])) ∧
      step (after .init (running [0x50000048]))
        = .next (after (.putc 0x48) (after .init (running [0x50000048]))).retire) := by
  refine ⟨rfl, ⟨by decide, rfl, by decide⟩, fun addr h h' => ?_, rfl⟩
  refine (congrArg Option.isSome (readByte_fillCells _ _ addr)).trans ?_
  simp only [h, h', and_self, if_true]
  split <;> rfl

/-- CLEAR: unwritten attribute, both fills, and after INIT. -/
theorem witness_ClearResult :
    (State.reset.params.clearFill = .current ∧ State.reset.attrValid = false) ∧
    (ready.params.clearFill = .current ∧ ready.attrValid = true ∧ (0x0F : Byte) = ready.attr) ∧
    ((underDefault State.reset).params.clearFill = .default ∧ (0x0F : Byte) = 0x0F) ∧
    (ready.mem.wf ∧ ready.faulted = false ∧ (after .init ready).faulted = false ∧
      exec .init ready = .next (after .init ready)) ∧
    ((after .clear ready).faulted = false ∧ exec .clear ready = .next (after .clear ready)) :=
  ⟨by decide, by decide, by decide, ⟨.nil, by decide, by decide, rfl⟩, by decide, rfl⟩

theorem witness_ClearIsIdempotent :
    ready.mem.wf ∧ (ready.params.clearFill = .current → ready.attrValid = true) ∧
    ((underDefault State.reset).params.clearFill = .current → (underDefault State.reset).attrValid = true) := by decide

/-- PUTCAT and SETCUR: the last cell, the first column outside, the first row outside. -/
theorem witness_PutcatResult_SetcurResult :
    ((79 : Col).toNat < 80 ∧ (24 : Row).toNat < 25) ∧ (80 ≤ (80 : Col).toNat ∨ 25 ≤ (0 : Row).toNat) ∧
    (80 ≤ (0 : Col).toNat ∨ 25 ≤ (25 : Row).toNat) := by decide

/-- PUTC: a line feed under GLYPH, another byte under NEWLINE; either register unwritten; the cursor on the last cell. -/
theorem witness_PutcResult :
    (ready.params.lfPolicy = .glyph ∨ (0x0A : Byte) ≠ 0x0A) ∧
    ((underNewline ready).params.lfPolicy = .glyph ∨ (0x0D : Byte) ≠ 0x0A) ∧
    ({ ready with curValid := false } : State).curValid = false ∧
    ({ ready with attrValid := false } : State).attrValid = false ∧
    ((readyAt 79 24).curValid = true ∧ (readyAt 79 24).attrValid = true ∧ (readyAt 79 24).col.toNat < 80 ∧
      (readyAt 79 24).row.toNat < 25) := by decide

/-- The line feed under NEWLINE: cursor unwritten, and cursor on the last row; and a byte shown as a glyph. -/
theorem witness_PutcNewlineResult :
    ((underNewline State.reset).params.lfPolicy = .newline ∧ (underNewline State.reset).curValid = false) ∧
    ((underNewline (readyAt 5 24)).params.lfPolicy = .newline ∧ (underNewline (readyAt 5 24)).curValid = true ∧
      (underNewline (readyAt 5 24)).row.toNat < 25) ∧
    ((ready.params.lfPolicy = .glyph ∨ (0x0A : Byte) ≠ 0x0A) ∧ ready.curValid = true ∧ ready.attrValid = true) := by
  decide

/-- Inside a row, at the end of a row, and at the end of the grid. -/
theorem witness_CursorAdvance :
    (78 < 80 ∧ 0 < 25 ∧ 78 < 79) ∧ (79 < 80 ∧ 23 < 25 ∧ 79 = 79 ∧ 23 < 24) ∧ (79 < 80 ∧ 24 < 25 ∧ 79 = 79 ∧ 24 = 24) := by
  decide

theorem witness_CellAddresses :
    79 < 80 ∧ 24 < 25 ∧ 79 < 80 ∧ 24 < 25 ∧ cellAddr 79 24 = cellAddr 79 24 := by decide

/-- A script with a byte, and none. -/
theorem witness_PortReadAnswers :
    (polling ready [0x01]).portScript = 0x01 :: [] ∧ ready.portScript = [] := by decide

/-- The first break code; the entries 1 and 127 allow; an entry of 0 and one of -128. -/
theorem witness_ScancodeDecoding :
    (0x01 : Byte) = (Vector.replicate 128 (0x01 : Byte))[(0x80 : Byte).toNat % 128] ∧ 128 ≤ (0x80 : Byte).toNat ∧
    (0x7F : Byte) = (Vector.replicate 128 (0x7F : Byte))[(0x7F : Byte).toNat % 128] ∧ (0x7F : Byte).toNat < 128 ∧
    1 ≤ (0x01 : Byte).toNat ∧ (0x7F : Byte).toNat ≤ 127 ∧
    (0x80 : Byte) = (Vector.replicate 128 (0x80 : Byte))[(0x00 : Byte).toNat % 128] ∧ 128 ≤ (0x80 : Byte).toNat ∧
    (0x00 : Byte) = (Vector.replicate 128 (0x00 : Byte))[(0x7F : Byte).toNat % 128] ∧ (0x00 : Byte).toNat = 0 := by decide

theorem witness_KpollWithoutData : (polling ready [0xFE]).statusByte.getLsbD 0 = false := by decide

/-- KPOLL: no data, a byte that drops, a byte that forwards, and one that faults. -/
theorem witness_KpollResult :
    (polling ready [0x00]).statusByte.getLsbD 0 = false ∧
    ((polling ready [0x01, 0x9E]).statusByte.getLsbD 0 = true ∧
      decodeSc (polling ready [0x01, 0x9E]).table (polling ready [0x01, 0x9E]).dataByte = none) ∧
    ((polling ready [0x01, 0x1E]).statusByte.getLsbD 0 = true ∧
      decodeSc (polling ready [0x01, 0x1E]).table (polling ready [0x01, 0x1E]).dataByte = some 0x61) ∧
    ((polling State.reset [0x01, 0x1E]).statusByte.getLsbD 0 = true ∧
      decodeSc (polling State.reset [0x01, 0x1E]).table (polling State.reset [0x01, 0x1E]).dataByte = some 0x61 ∧
      (polling State.reset [0x01, 0x1E]).curValid = false) := by decide

theorem witness_KpollForwardsCharacter :
    (polling (readyAt 79 24) [0x01, 0x1E]).statusByte.getLsbD 0 = true ∧
    decodeSc (polling (readyAt 79 24) [0x01, 0x1E]).table (polling (readyAt 79 24) [0x01, 0x1E]).dataByte = some 0x61 ∧
    ((polling (readyAt 79 24) [0x01, 0x1E]).params.lfPolicy = .glyph ∨ (0x61 : Byte) ≠ 0x0A) ∧
    (polling (readyAt 79 24) [0x01, 0x1E]).curValid = true ∧ (polling (readyAt 79 24) [0x01, 0x1E]).attrValid = true ∧
    (polling (readyAt 79 24) [0x01, 0x1E]).col.toNat < 80 ∧ (polling (readyAt 79 24) [0x01, 0x1E]).row.toNat < 25 := by
  decide

theorem witness_KpollForwardsNewline :
    (underNewline (polling (readyAt 5 24) [0x01, 0x1C])).statusByte.getLsbD 0 = true ∧
    decodeSc (underNewline (polling (readyAt 5 24) [0x01, 0x1C])).table
      (underNewline (polling (readyAt 5 24) [0x01, 0x1C])).dataByte = some 0x0A ∧
    (underNewline (polling (readyAt 5 24) [0x01, 0x1C])).params.lfPolicy = .newline ∧
    (underNewline (polling (readyAt 5 24) [0x01, 0x1C])).curValid = true ∧
    (underNewline (polling (readyAt 5 24) [0x01, 0x1C])).row.toNat < 25 := by decide

/-- The cursor unwritten; the cursor written and the attribute not, under GLYPH. -/
theorem witness_KpollFaultsUninit :
    ((polling State.reset [0x01, 0x1E]).statusByte.getLsbD 0 = true ∧
      decodeSc (polling State.reset [0x01, 0x1E]).table (polling State.reset [0x01, 0x1E]).dataByte = some 0x61 ∧
      (polling State.reset [0x01, 0x1E]).curValid = false) ∧
    ((polling (after (.setcur 0 0) State.reset) [0x01, 0x1E]).statusByte.getLsbD 0 = true ∧
      decodeSc (polling (after (.setcur 0 0) State.reset) [0x01, 0x1E]).table
        (polling (after (.setcur 0 0) State.reset) [0x01, 0x1E]).dataByte = some 0x61 ∧
      (polling (after (.setcur 0 0) State.reset) [0x01, 0x1E]).attrValid = false ∧
      ((polling (after (.setcur 0 0) State.reset) [0x01, 0x1E]).params.lfPolicy = .glyph ∨ (0x61 : Byte) ≠ 0x0A)) := by
  decide

/-- Data 30 with a positive entry, data 30 + 0x80, and the break code of make code 127. -/
theorem witness_ScancodeRoundTrip :
    ((polling (readyAt 79 24) [0x01, 0x1E]).statusByte.getLsbD 0 = true ∧
      (polling (readyAt 79 24) [0x01, 0x1E]).params.lfPolicy = .glyph ∧
      (polling (readyAt 79 24) [0x01, 0x1E]).curValid = true ∧ (polling (readyAt 79 24) [0x01, 0x1E]).attrValid = true ∧
      (polling (readyAt 79 24) [0x01, 0x1E]).col.toNat < 80 ∧ (polling (readyAt 79 24) [0x01, 0x1E]).row.toNat < 25) ∧
    ((polling (readyAt 79 24) [0x01, 0x1E]).dataByte.toNat = (30 : MakeCode).toNat ∧
      0 < (scancode (polling (readyAt 79 24) [0x01, 0x1E]).table 30).toInt) ∧
    (polling (readyAt 79 24) [0x01, 0x9E]).dataByte.toNat = (30 : MakeCode).toNat + 0x80 ∧
    (polling (readyAt 79 24) [0x01, 0xFF]).dataByte.toNat = (127 : MakeCode).toNat + 0x80 := by decide

/-- F1, a sentinel; left shift, unmapped; and a table that keeps R33. -/
theorem witness_SentinelsDropLikeUnmapped :
    ((polling ready [0x01, 59]).statusByte.getLsbD 0 = true ∧
      (polling ready [0x01, 59]).dataByte.toNat = (59 : MakeCode).toNat ∧
      (scancode (polling ready [0x01, 59]).table 59).toInt ≤ 0) ∧
    ((polling ready [0x01, 42]).statusByte.getLsbD 0 = true ∧
      (polling ready [0x01, 42]).dataByte.toNat = (42 : MakeCode).toNat ∧
      (scancode (polling ready [0x01, 42]).table 42).toInt ≤ 0) ∧
    TableOk Params.atReset State.reset.table := by decide

theorem witness_StatusHighBitsIgnored :
    (0x01 : Byte).getLsbD 0 = (0xFF : Byte).getLsbD 0 ∧ (0x00 : Byte).getLsbD 0 = (0xFE : Byte).getLsbD 0 := by decide

/-- Each command of the three frames, where it faults and where it does not. -/
theorem witness_frames :
    exec (.setcolor 0x1F) ready = .next (after (.setcolor 0x1F) ready) ∧
    exec (.setcur 79 24) ready = .next (after (.setcur 79 24) ready) ∧
    exec (.setcur 80 0) ready = .next (after (.setcur 80 0) ready) ∧
    exec (.putcat 0x58 0x0F 79 24) ready = .next (after (.putcat 0x58 0x0F 79 24) ready) ∧
    exec (.putcat 0x58 0x0F 0 25) ready = .next (after (.putcat 0x58 0x0F 0 25) ready) ∧
    exec (.putc 0x58) (readyAt 79 24) = .next (after (.putc 0x58) (readyAt 79 24)) ∧
    exec (.putc 0x58) State.reset = .next (after (.putc 0x58) State.reset) ∧
    ((underNewline ready).params.lfPolicy = .newline ∧
      exec (.putc 0x0A) (underNewline ready) = .next (after (.putc 0x0A) (underNewline ready))) ∧
    exec .kpoll (polling ready [0x01, 0x1E]) = .next (after .kpoll (polling ready [0x01, 0x1E])) ∧
    (exec .kpoll (polling ready [0x01, 0x9E]) = .next (after .kpoll (polling ready [0x01, 0x9E])) ∧
      decodeSc (polling ready [0x01, 0x9E]).table (polling ready [0x01, 0x9E]).dataByte = none) ∧
    exec .init ready = .next (after .init ready) ∧ exec .clear ready = .next (after .clear ready) ∧
    exec .clear State.reset = .next (after .clear State.reset) :=
  ⟨rfl, rfl, rfl, rfl, rfl, rfl, rfl, ⟨by decide, rfl⟩, rfl, ⟨rfl, by decide⟩, rfl, rfl, rfl⟩

/-- A step; a command that writes the attribute; one that moves the cursor. -/
theorem witness_WhoWritesWhat :
    step (running [0x30001F00]) = .next (after (.setcolor 0x1F) (running [0x30001F00])).retire ∧
    (exec (.setcolor 0x1F) ready = .next (after (.setcolor 0x1F) ready) ∧ (after (.setcolor 0x1F) ready).attr ≠ ready.attr) ∧
    (exec (.putc 0x41) (readyAt 79 24) = .next (after (.putc 0x41) (readyAt 79 24)) ∧
      (after (.putc 0x41) (readyAt 79 24)).col ≠ (readyAt 79 24).col) :=
  ⟨rfl, ⟨rfl, by decide⟩, rfl, by decide⟩

/-- The cell written, and one beside it. -/
theorem witness_HostSeesCellWritten :
    (79 : Col).toNat < 80 ∧ (24 : Row).toNat < 25 ∧ (78 : Col).toNat < 80 ∧ (24 : Row).toNat < 25 ∧
    exec (.putcat 0x58 0x0F 79 24) ready = .next (after (.putcat 0x58 0x0F 79 24) ready) :=
  ⟨by decide, by decide, by decide, by decide, rfl⟩

/-- KPOLL, and another command. -/
theorem witness_HistoryGrowsInOrder :
    exec .kpoll (polling ready [0x01, 0x1E]) = .next (after .kpoll (polling ready [0x01, 0x1E])) ∧
    exec (.putc 0x41) ready = .next (after (.putc 0x41) ready) ∧ Instr.putc 0x41 ≠ .kpoll := ⟨rfl, rfl, by decide⟩

/-- A KPOLL that faults, and a PUTCAT that does. -/
theorem witness_FaultsArePrecise :
    ((polling State.reset [0x01, 0x1E]).faulted = false ∧ (polling State.reset [0x01, 0x1E]).kbdState = .idle ∧
      exec .kpoll (polling State.reset [0x01, 0x1E]) = .next (after .kpoll (polling State.reset [0x01, 0x1E])) ∧
      (after .kpoll (polling State.reset [0x01, 0x1E])).faulted = true) ∧
    (ready.faulted = false ∧ ready.kbdState = .idle ∧
      exec (.putcat 0x41 0x0F 80 0) ready = .next (after (.putcat 0x41 0x0F 80 0) ready) ∧
      (after (.putcat 0x41 0x0F 80 0) ready).faulted = true ∧ Instr.putcat 0x41 0x0F 80 0 ≠ .kpoll) :=
  ⟨⟨by decide, by decide, rfl, by decide⟩, by decide, by decide, rfl, by decide, by decide⟩

/-- Out of the grid by one column and by one row, and the last cell, which is not. -/
theorem witness_CoordExactlyOutOfGrid :
    ready.faultCode = .none ∧ exec (.setcur 80 24) ready = .next (after (.setcur 80 24) ready) ∧
    (after (.setcur 80 24) ready).faultCode = .coord ∧
    exec (.putcat 0x41 0x0F 79 25) ready = .next (after (.putcat 0x41 0x0F 79 25) ready) ∧
    (after (.putcat 0x41 0x0F 79 25) ready).faultCode = .coord ∧
    (after (.putcat 0x41 0x0F 79 24) ready).faultCode = .none :=
  ⟨by decide, rfl, by decide, rfl, by decide, by decide⟩

/-- CLEAR and PUTC with the register unwritten. -/
theorem witness_UninitExactlyUnwritten :
    State.reset.faultCode = .none ∧ exec .clear State.reset = .next (after .clear State.reset) ∧
    (after .clear State.reset).faultCode = .uninit ∧ exec (.putc 0x41) State.reset = .next (after (.putc 0x41) State.reset) ∧
    (after (.putc 0x41) State.reset).faultCode = .uninit := ⟨by decide, rfl, by decide, rfl, by decide⟩

/-- Two characters over the end of the grid, in the middle of a run. -/
theorem witness_WriteSequenceLaw :
    let s := { readyAt 79 24 with words := [0x70000000, 0x50000041, 0x50000042, 0x70000000], pos := 1 }
    s.faulted = false ∧ ConsoleReady s ∧ CursorInGrid s ∧ s.params.lfPolicy = .glyph ∧
    s.words = [0x70000000] ++ [(0x41 : Byte), 0x42].map (fun b => encode (.putc b)) ++ [0x70000000] ∧
    s.pos = [(0x70000000 : Word)].length ∧ (∀ k, k < [(0x41 : Byte), 0x42].length → k < 2 ∧ 2 ≤ k + 2000) :=
  ⟨by decide, ⟨by decide, by decide⟩, fun _ => by decide, by decide, by decide, by decide, by decide⟩

/-- 2001 characters from the last cell: the last one, the only 'B', stands over the first; the last 2000 remain. -/
theorem witness_WriteSequenceLaw_overwrites :
    let bytes := List.replicate 2000 (0x41 : Byte) ++ [0x42]
    let s := { readyAt 79 24 with words := bytes.map fun b => encode (.putc b) }
    s.faulted = false ∧ ConsoleReady s ∧ CursorInGrid s ∧ s.params.lfPolicy = .glyph ∧
    s.words = [] ++ bytes.map (fun b => encode (.putc b)) ++ [] ∧ s.pos = ([] : List Word).length ∧
    bytes.length = 2001 ∧ ¬ bytes.length ≤ 0 + 2000 ∧ bytes.length ≤ 1 + 2000 ∧
    (s.linear + 0) % 2000 = (s.linear + 2000) % 2000 ∧ bytes[0]? ≠ bytes[2000]? := by
  have hlen : (List.replicate 2000 (0x41 : Byte) ++ [0x42]).length = 2001 := by
    rw [List.length_append, List.length_replicate, List.length_singleton]
  refine ⟨rfl, ⟨rfl, rfl⟩, fun _ => by decide, rfl, by simp only [List.nil_append, List.append_nil], rfl, hlen, ?_, ?_,
    by decide, ?_⟩
  · rw [hlen]; decide
  · exact hlen.le
  · rw [List.getElem?_append_left (by rw [List.length_replicate]; decide), List.getElem?_replicate_of_lt (by decide),
      List.getElem?_append_right (by rw [List.length_replicate]), List.length_replicate]
    decide

/-- 2001 characters, and 2079. -/
theorem witness_RowWrapLaw (k : Nat) (hk : k = 1 ∨ k = 79) :
    let bytes := List.replicate (2000 + k) (0x41 : Byte)
    let s := running (bytes.map fun b => encode (.putc b))
    bytes.length = 2000 + k ∧ 0 < k ∧ k < 80 ∧ s.faulted = false ∧ ConsoleReady s ∧ s.col = 0 ∧ s.row = 0 ∧
    s.params.lfPolicy = .glyph ∧ s.words = bytes.map (fun b => encode (.putc b)) ∧ s.pos = 0 :=
  ⟨List.length_replicate, by omega, by omega, rfl, ⟨rfl, rfl⟩, rfl, rfl, rfl, rfl, rfl⟩

/-- A string with a NUL in it, and the words of a WRITESTR. -/
theorem witness_PseudoCommandExpansion :
    (∀ b ∈ [(0x48 : Byte), 0x69], b ≠ 0) ∧ (AsmStmt.writestr [0x41]).assemble = some [0x50000041] := by decide

end Sys2Proof.Tests
end

/-! PROOFS. The statements of 10_state.md: the invariant, the run's position, which command writes what, and what a
host reads. -/

namespace Sys2Proof.Machine

/-! ### What `emit` and a command leave unchanged -/

section Frames

variable (s : State) (w : Word) (c : Byte)

/-- A property of all three states `emit` can answer with is one of the state it answers with. -/
theorem State.emit_elim {P : State → Prop} (hline : s.curValid = true → P s.newLine)
    (hglyph : s.consoleWritten = true → P (s.memWrite s.cursorAddr (pack c s.attr)).advanceCursor)
    (hraise : s.consoleWritten = false → P (s.raise .uninit w)) : P (s.emit w c) := by
  obtain ⟨-, hv, h⟩ | ⟨-, hv, h⟩ | ⟨-, hw, h⟩ | ⟨-, hw, h⟩ := s.emit_cases w c
  · exact h ▸ hline hv
  · exact h ▸ hraise (by simp [State.consoleWritten, hv])
  · exact h ▸ hglyph hw
  · exact h ▸ hraise hw

@[simp] theorem State.emit_attr : (s.emit w c).attr = s.attr :=
  s.emit_elim w c (P := (·.attr = s.attr)) (fun _ => rfl) (fun _ => rfl) (fun _ => rfl)

@[simp] theorem State.emit_attrValid : (s.emit w c).attrValid = s.attrValid :=
  s.emit_elim w c (P := (·.attrValid = s.attrValid)) (fun _ => rfl) (fun _ => rfl) (fun _ => rfl)

@[simp] theorem State.emit_table : (s.emit w c).table = s.table :=
  s.emit_elim w c (P := (·.table = s.table)) (fun _ => rfl) (fun _ => rfl) (fun _ => rfl)

@[simp] theorem State.emit_params : (s.emit w c).params = s.params :=
  s.emit_elim w c (P := (·.params = s.params)) (fun _ => rfl) (fun _ => rfl) (fun _ => rfl)

@[simp] theorem State.emit_pos : (s.emit w c).pos = s.pos :=
  s.emit_elim w c (P := (·.pos = s.pos)) (fun _ => rfl) (fun _ => rfl) (fun _ => rfl)

/-- `emit` changes no byte of memory, or writes the cell at the cursor. -/
theorem State.emit_mem :
    (s.emit w c).mem = s.mem ∨ (s.emit w c).mem = writeCell s.mem s.cursorAddr (pack c s.attr) :=
  s.emit_elim w c (P := fun t => t.mem = s.mem ∨ t.mem = writeCell s.mem s.cursorAddr (pack c s.attr))
    (fun _ => .inl rfl) (fun _ => .inr rfl) (fun _ => .inl rfl)

end Frames

/-- No command writes the table, the parameters or the run's position. -/
theorem exec_frame {i : Instr} {s t : State} (h : exec i s = .next t) :
    t.table = s.table ∧ t.params = s.params ∧ t.pos = s.pos := by
  cases exec_effect h with
  | putc c => simp
  | kpollForward c hr hd => simp [State.polled, State.afterData]
  | _ => exact ⟨rfl, rfl, rfl⟩

/-- A command leaves memory as it is, writes one cell, or repaints. -/
theorem exec_mem {i : Instr} {s t : State} (h : exec i s = .next t) :
    t.mem = s.mem ∨ (∃ addr v, t.mem = writeCell s.mem addr v) ∨ ∃ v, t.mem = fillCells s.mem v := by
  cases exec_effect h with
  | init => exact .inr (.inr ⟨_, rfl⟩)
  | clear a _ => exact .inr (.inr ⟨_, rfl⟩)
  | putcat c a x y _ => exact .inr (.inl ⟨_, _, rfl⟩)
  | putc c => exact (s.emit_mem _ c).imp_right fun hm => .inl ⟨_, _, hm⟩
  | kpollForward c _ _ => exact (s.polled.afterData.emit_mem _ c).imp_right fun hm => .inl ⟨_, _, hm⟩
  | _ => exact .inl rfl

/-- A step leaves memory as it is, writes one cell, or repaints. -/
theorem step_mem {s t : State} (h : step s = .next t) :
    t.mem = s.mem ∨ (∃ addr v, t.mem = writeCell s.mem addr v) ∨ ∃ v, t.mem = fillCells s.mem v := by
  obtain ⟨-, ⟨-, rfl⟩ | ⟨w, r, -, -, rfl⟩ | ⟨w, i, u, -, -, hx, rfl⟩⟩ := step_cases h
  · exact .inl rfl
  · exact .inl rfl
  · simpa using exec_mem hx

/-! ### The invariant, operation by operation -/

section Invariant

variable {s : State}

theorem Inv.setCursor (h : Inv s) {x : Col} {y : Row} (hx : x.toNat < Config.width) (hy : y.toNat < Config.height) :
    Inv (s.setCursor x y) :=
  { h with cursor := fun _ => ⟨hx, hy⟩ }

theorem Inv.setAttr (h : Inv s) (a : Byte) : Inv (s.setAttr a) := { h with }

theorem Inv.raise (h : Inv s) {code : FaultCode} (hc : code ≠ .none) (w : Word) : Inv (s.raise code w) :=
  { h with fault := ⟨by simpa using hc, by simp⟩ }

theorem HistoryLegal.append {es : List Event} (h : HistoryLegal s) (hes : ∀ e ∈ es, e.legal) :
    ∀ e ∈ s.history ++ es, e.legal :=
  fun e he => (List.mem_append.mp he).elim (h e) (hes e)

theorem MemFollowsHistory.append (h : MemFollowsHistory s) {m : Memory} {es : List Event} (hm : m = replay s.mem es) :
    m = replay [] (s.history ++ es) := by
  rw [replay_append, ← h, hm]

/-- A whole cell written keeps the invariant. -/
theorem Inv.memWrite (h : Inv s) {i : Nat} (hi : i < Config.cells) (v : CellWord) :
    Inv (s.memWrite (indexAddr i) v) :=
  { h with
    memCanonical := writeCell_wf h.memCanonical _ _
    memInWindow := by
      intro p hp
      have ha := indexAddr_eq i
      have hb : Config.fbBytes = 2 * Config.cells := rfl
      obtain hp | hp | hp := mem_writeCell hp
      · omega
      · omega
      · exact h.memInWindow p hp
    memFollows := h.memFollows.append rfl
    historyLegal := h.historyLegal.append (List.forall_mem_singleton.mpr ⟨i, hi, rfl⟩) }

theorem Inv.repaint (h : Inv s) (v : CellWord) : Inv (s.repaint v) :=
  { h with
    memCanonical := fillCells_wf h.memCanonical v
    memInWindow := fun p hp => (mem_fillCells hp).elim id (h.memInWindow p)
    memFollows := h.memFollows.append (replay_fillEvents h.memCanonical v).symm
    historyLegal := h.historyLegal.append (fillEvents_legal v) }

theorem Inv.afterRead (h : Inv s) {port : Port} (hp : port = Config.kbdStatusPort ∨ port = Config.kbdDataPort) :
    Inv (s.afterRead port) :=
  { h with
    memFollows := h.memFollows.append rfl
    historyLegal := h.historyLegal.append (List.forall_mem_singleton.mpr hp) }

theorem Inv.polled (h : Inv s) : Inv s.polled := h.afterRead (.inl rfl)

theorem Inv.afterData (h : Inv s) : Inv s.afterData := { h.afterRead (.inr rfl) with kbdIdle := rfl }

theorem Inv.emit (h : Inv s) (w : Word) (c : Byte) : Inv (s.emit w c) := by
  refine s.emit_elim w c (fun hv => ?_) (fun hw => ?_) (fun _ => h.raise (by decide) w)
  · obtain ⟨-, hrow⟩ := h.cursor hv
    exact h.setCursor (by decide) ((State.newLine_row_toNat hrow).trans_lt (nextRow_lt hrow))
  · obtain ⟨hcol, hrow⟩ := h.cursor ((State.consoleWritten_iff s).mp hw).1
    obtain ⟨hcol', hrow'⟩ := advance_lt hcol hrow
    exact (h.memWrite (cellIndex_lt hcol hrow) _).setCursor
      ((State.advanceCursor_col_toNat hcol hrow).trans_lt hcol')
      ((State.advanceCursor_row_toNat hcol hrow).trans_lt hrow')

theorem Inv.retire (h : Inv s) : Inv s.retire := by
  unfold State.retire
  split
  · exact h
  · exact { h with }

theorem Inv.exec {i : Instr} {t : State} (h : Inv s) (hx : exec i s = .next t) : Inv t := by
  cases exec_effect hx with
  | init => exact ((h.setCursor (by decide) (by decide)).setAttr _).repaint _
  | clear a _ => exact (h.repaint _).setCursor (by decide) (by decide)
  | clearUninit _ => exact h.raise (by decide) _
  | setcolor a => exact h.setAttr a
  | putcat c a x y hl =>
    obtain ⟨hcol, hrow⟩ := (coordsLegal_iff x y).mp hl
    exact h.memWrite (cellIndex_lt hcol hrow) _
  | putcatCoord c a x y _ => exact h.raise (by decide) _
  | putc c => exact h.emit _ c
  | setcur x y hl =>
    obtain ⟨hcol, hrow⟩ := (coordsLegal_iff x y).mp hl
    exact h.setCursor hcol hrow
  | setcurCoord x y _ => exact h.raise (by decide) _
  | kpollIdle _ => exact h.polled
  | kpollDrop _ _ => exact h.polled.afterData
  | kpollForward c _ _ => exact h.polled.afterData.emit _ c

end Invariant

/-- Settles O13: each operation a command is made of keeps the invariant, and so does moving the position on. -/
theorem stepKeepsInvariant : Obligations.StepKeepsInvariant := by
  intro s t h hs
  obtain ⟨-, ⟨-, rfl⟩ | ⟨w, r, -, -, rfl⟩ | ⟨w, i, u, -, -, hx, rfl⟩⟩ := step_cases hs
  · exact h
  · exact h.raise (by decide) w
  · exact (h.exec hx).retire

/-! ### The run's position -/

theorem Completed.step_eq {s : State} (h : Completed s) : step s = .next s := by
  obtain ⟨hlen, hf⟩ := h
  rw [step, State.issue_of_none hf (List.getElem?_eq_none hlen)]

/-- A block that is not faulted, at a word that decodes, answers what the command answers, retired. -/
theorem step_of_command {s : State} {w : Word} {i : Instr} (hf : s.faulted = false) (hw : s.fetch = some w)
    (hd : decode w = .ok i) : step s = retireOutcome (exec i s) := by
  rw [step, State.issue_of_ok hf hw hd]

/-- Settles O6: `retireOutcome` is the statement's match on the outcome. -/
theorem stepRunsDecodedCommand : Obligations.StepRunsDecodedCommand := by
  intro s w i hf hw hd
  rw [step_of_command hf hw hd]
  cases exec i s <;> rfl

/-- Settles O9: no command writes the position, so it is moved by `retire` alone. -/
theorem positionFollowsCommands : Obligations.PositionFollowsCommands := by
  refine ⟨fun s t hs => ?_, fun s hc => hc.step_eq⟩
  obtain ⟨-, ⟨hw, rfl⟩ | ⟨w, r, -, -, rfl⟩ | ⟨w, i, u, -, -, hx, rfl⟩⟩ := step_cases hs
  · have hlen : t.words.length ≤ t.pos := List.getElem?_eq_none_iff.mp hw
    omega
  · simp
  · obtain ⟨-, -, hpos⟩ := exec_frame hx
    rw [State.retire_faulted, State.retire_pos, hpos]
    exact ⟨fun _ hf => by simp [hf], fun _ hf => by simp [hf]⟩

/-- Settles O10: the list of words is made long enough before the word is set, so the position is inside it. -/
theorem placedWordIsFetched : Obligations.PlacedWordIsFetched := by
  intro s nbits w
  have hlen : s.pos < (s.words ++ List.replicate (s.pos + 1 - s.words.length) (0 : Word)).length := by
    rw [List.length_append, List.length_replicate]
    omega
  exact List.getElem?_set_self hlen

/-! ### Both console registers written -/

section Ready

variable {s : State}

theorem ConsoleReady.consoleWritten (h : ConsoleReady s) : s.consoleWritten = true :=
  (State.consoleWritten_iff s).mpr h

/-- With `attr` written CLEAR has one to paint with. -/
theorem ConsoleReady.clearAttr_ne_none (h : ConsoleReady s) : s.clearAttr ≠ none := by
  unfold State.clearAttr
  split <;> simp [h.2]

/-- With both registers written, `emit` keeps them written and raises nothing. -/
theorem ConsoleReady.emit (h : ConsoleReady s) (w : Word) (c : Byte) :
    ConsoleReady (s.emit w c) ∧ (s.emit w c).faultCode = s.faultCode := by
  refine s.emit_elim w c (P := fun t => ConsoleReady t ∧ t.faultCode = s.faultCode)
    (fun _ => ⟨⟨rfl, h.2⟩, rfl⟩) (fun _ => ⟨⟨rfl, h.2⟩, rfl⟩) (fun hw => ?_)
  simp [h.consoleWritten] at hw

/-- With both registers written, a command keeps them written and can raise COORD alone. -/
theorem ConsoleReady.exec {i : Instr} {t : State} (h : ConsoleReady s) (hx : exec i s = .next t) :
    ConsoleReady t ∧ (t.faultCode = s.faultCode ∨ t.faultCode = .coord) := by
  have ⟨hcur, hattr⟩ := h
  cases exec_effect hx with
  | init => exact ⟨⟨rfl, rfl⟩, .inl rfl⟩
  | clear a _ => exact ⟨⟨rfl, hattr⟩, .inl rfl⟩
  | clearUninit hc => exact absurd hc h.clearAttr_ne_none
  | setcolor a => exact ⟨⟨hcur, rfl⟩, .inl rfl⟩
  | setcur x y _ => exact ⟨⟨rfl, hattr⟩, .inl rfl⟩
  | putcatCoord c a x y _ => exact ⟨h, .inr rfl⟩
  | setcurCoord x y _ => exact ⟨h, .inr rfl⟩
  | putc c => exact (h.emit _ c).imp_right .inl
  | kpollForward c _ _ =>
    have hread : ConsoleReady s.polled.afterData := h
    exact (hread.emit _ c).imp_right .inl
  | putcat c a x y _ => exact ⟨h, .inl rfl⟩
  | kpollIdle _ => exact ⟨h, .inl rfl⟩
  | kpollDrop _ _ => exact ⟨h, .inl rfl⟩

end Ready

/-- Settles O14: a step keeps the code, raises ILLEGAL, or runs a command, which can raise COORD alone. -/
theorem readyConsoleNeverUninit : Obligations.ReadyConsoleNeverUninit := by
  intro s t h hs
  obtain ⟨-, ⟨-, rfl⟩ | ⟨w, r, -, -, rfl⟩ | ⟨w, i, u, -, -, hx, rfl⟩⟩ := step_cases hs
  · exact ⟨h, fun hn => by simp [hn]⟩
  · exact ⟨h, fun _ => by simp⟩
  · obtain ⟨⟨hcur, hattr⟩, hcode⟩ := h.exec hx
    refine ⟨⟨by simpa using hcur, by simpa using hattr⟩, fun hn => ?_⟩
    obtain hcode | hcode := hcode <;> simp [hcode, hn]

/-! ### A painted framebuffer -/

/-- After a repaint every byte of the framebuffer is written. -/
theorem isSome_readByte_fillCells (m : Memory) (v : CellWord) {k : Nat} (hlo : Config.fbBase ≤ k)
    (hhi : k < Config.fbBase + Config.fbBytes) : (readByte (fillCells m v) k).isSome = true := by
  rw [readByte_fillCells, if_pos ⟨hlo, hhi⟩, Option.isSome_some]

/-- A cell write leaves no written byte unwritten. -/
theorem isSome_readByte_writeCell {m : Memory} {k : Nat} (h : (readByte m k).isSome = true) (addr : Nat)
    (v : CellWord) : (readByte (writeCell m addr v) k).isSome = true := by
  rw [readByte_writeCell]
  split_ifs
  · rfl
  · rfl
  · exact h

/-- Settles O15: INIT and CLEAR repaint, and no step takes a written byte back. -/
theorem paintedFramebufferStaysWritten : Obligations.PaintedFramebufferStaysWritten := by
  refine ⟨fun s t hx => ?_, fun s t _ hx hok => ?_, fun s t h hs addr hlo hhi => ?_⟩
  · cases exec_effect hx
    exact fun addr => isSome_readByte_fillCells _ _
  · cases exec_effect hx with
    | clear a _ => exact fun addr => isSome_readByte_fillCells _ _
    | clearUninit _ => simp at hok
  · obtain hm | ⟨a, v, hm⟩ | ⟨v, hm⟩ := step_mem hs <;> rw [hm]
    · exact h addr hlo hhi
    · exact isSome_readByte_writeCell (h addr hlo hhi) a v
    · exact isSome_readByte_fillCells _ _ hlo hhi

/-! ### The history is written, never read -/

/-- `s` with another history. -/
def State.withHistory (s : State) (h : List Event) : State := { s with history := h }

/-- `f` adds the same events to every history and does not look at it. -/
def HistoryBlind (f : State → State) : Prop :=
  ∀ s : State, ∃ es, ∀ h, f (s.withHistory h) = (f s).withHistory (h ++ es)

theorem historyBlind_id : HistoryBlind id := fun s => ⟨[], fun h => congrArg s.withHistory h.append_nil.symm⟩

theorem HistoryBlind.comp {f g : State → State} (hg : HistoryBlind g) (hf : HistoryBlind f) :
    HistoryBlind (g ∘ f) := by
  intro s
  obtain ⟨es, hes⟩ := hf s
  obtain ⟨es', hes'⟩ := hg (f s)
  exact ⟨es ++ es', fun h => by rw [Function.comp_apply, hes, hes', List.append_assoc]; rfl⟩

theorem historyBlind_emit (w : Word) (c : Byte) : HistoryBlind (·.emit w c) := by
  intro s
  have hline : ∀ h, (s.withHistory h).breaksLine c = s.breaksLine c := fun _ => rfl
  have hcursor : ∀ h, (s.withHistory h).curValid = s.curValid := fun _ => rfl
  have hwritten : ∀ h, (s.withHistory h).consoleWritten = s.consoleWritten := fun _ => rfl
  simp only [State.emit, hline, hcursor, hwritten]
  split_ifs
  · exact historyBlind_id s.newLine
  · exact historyBlind_id (s.raise .uninit w)
  · exact ⟨[.memWrite s.cursorAddr (pack c s.attr)], fun _ => rfl⟩
  · exact historyBlind_id (s.raise .uninit w)

theorem historyBlind_afterData : HistoryBlind State.afterData :=
  fun s => ⟨[.ioRead Config.kbdDataPort (s.portByte Config.kbdDataPort)], fun _ => rfl⟩

theorem State.dispatchKey_of_none {s : State} (hd : decodeSc s.table (s.portByte Config.kbdDataPort) = none)
    (w : Word) : s.dispatchKey w = s.afterData := by
  obtain ⟨-, h⟩ | ⟨c, hc, -⟩ := s.dispatchKey_cases w
  · exact h
  · simp [hd] at hc

theorem State.dispatchKey_of_some {s : State} {c : Byte}
    (hd : decodeSc s.table (s.portByte Config.kbdDataPort) = some c) (w : Word) :
    s.dispatchKey w = s.afterData.emit w c := by
  obtain ⟨hn, -⟩ | ⟨c', hc, h⟩ := s.dispatchKey_cases w
  · simp [hd] at hn
  · obtain rfl : c = c' := by simpa [hd] using hc
    exact h

theorem historyBlind_dispatchKey (w : Word) : HistoryBlind (·.dispatchKey w) := by
  intro s
  cases hd : decodeSc s.table (s.portByte Config.kbdDataPort) with
  | none =>
    have hdrop : ∀ h, (s.withHistory h).dispatchKey w = (s.withHistory h).afterData :=
      fun h => State.dispatchKey_of_none (s := s.withHistory h) hd w
    simp only [hdrop, State.dispatchKey_of_none hd]
    exact historyBlind_afterData s
  | some c =>
    have hemit : ∀ h, (s.withHistory h).dispatchKey w = (s.withHistory h).afterData.emit w c :=
      fun h => State.dispatchKey_of_some (s := s.withHistory h) hd w
    simp only [hemit, State.dispatchKey_of_some hd]
    exact (historyBlind_emit w c).comp historyBlind_afterData s

/-- KPOLL with a scripted status byte: from the state with that byte read it goes on by bit 0 of the byte alone. -/
theorem exec_kpoll_scripted (ready : Bool) : ∃ f, HistoryBlind f ∧
    ∀ (s : State) (b : Byte) (rest : List Byte), b.getLsbD 0 = ready →
      exec .kpoll { s with portScript := b :: rest }
        = .next (f (State.withHistory { s with portScript := rest } (s.history ++ [.ioRead 0x64 b]))) := by
  cases ready with
  | false => exact ⟨id, historyBlind_id, fun s b rest hb => execKpoll_notReady hb⟩
  | true =>
    exact ⟨_, historyBlind_dispatchKey (encode .kpoll), fun s b rest hb => congrArg Host.Outcome.next (if_pos hb)⟩

/-- Settles O36: what follows the status read depends on bit 0 alone and is blind to the event of the read. -/
theorem statusHighBitsIgnored : Obligations.StatusHighBitsIgnored := by
  intro s b b' rest hb
  obtain ⟨f, hf, hexec⟩ := exec_kpoll_scripted (b.getLsbD 0)
  obtain ⟨es, hes⟩ := hf { s with portScript := rest }
  refine ⟨_, _, es, hexec s b rest rfl, hexec s b' rest hb.symm, ?_, ?_, ?_⟩
  · rw [hes, hes]
    rfl
  · rw [hes]
    exact List.append_assoc ..
  · rw [hes]
    exact List.append_assoc ..

/-! ### Which command writes which register -/

/-- Settles O40: `attr` changes in the effects of INIT and SETCOLOR alone, and those of SETCOLOR and PUTCAT leave the
cursor. -/
theorem whoWritesWhat : Obligations.WhoWritesWhat := by
  refine ⟨fun s t hs => ?_, fun i s t hx hw => ?_, fun i s t hx hw => ?_⟩
  · obtain ⟨-, ⟨-, rfl⟩ | ⟨w, r, -, -, rfl⟩ | ⟨w, i, u, -, -, hx, rfl⟩⟩ := step_cases hs
    · exact ⟨rfl, rfl⟩
    · exact ⟨rfl, rfl⟩
    · obtain ⟨htable, hparams, -⟩ := exec_frame hx
      exact ⟨by simpa using htable, by simpa using hparams⟩
  · cases exec_effect hx with
    | init => exact .inl rfl
    | setcolor a => exact .inr ⟨a, rfl⟩
    | _ => simp [State.polled, State.afterData] at hw
  · cases exec_effect hx with
    | setcolor a => simp at hw
    | putcat c a x y _ => simp at hw
    | putcatCoord c a x y _ => simp at hw
    | _ => simp

/-! ### What a host reads -/

/-- What a host reads after a cell write: the two bytes of the cell, and every other byte as before. -/
theorem State.hostByte_memWrite (s : State) (addr : Nat) (v : CellWord) (k : Nat) :
    (s.memWrite addr v).hostByte k =
      if k = addr + 1 then v.extractLsb' 8 8 else if k = addr then v.extractLsb' 0 8 else s.hostByte k := by
  simp only [State.hostByte, State.memWrite_mem, State.memWrite_resets, readByte_writeCell]
  split_ifs <;> rfl

/-- A host reads the packed cell where it was written. -/
theorem State.hostCell_memWrite_same (s : State) (x y : Nat) (c a : Byte) :
    (s.memWrite (cellAddr x y) (pack c a)).hostCell x y = a ++ c := by
  simp [State.hostCell, State.hostByte_memWrite]

/-- A host reads every other cell as before: cells do not overlap. -/
theorem State.hostCell_memWrite_other (s : State) {x y x' y' : Nat} (hx : x < Config.width) (hx' : x' < Config.width)
    (h : ¬ (x' = x ∧ y' = y)) (v : CellWord) :
    (s.memWrite (cellAddr x y) v).hostCell x' y' = s.hostCell x' y' := by
  have hne : cellAddr x' y' + 1 < cellAddr x y ∨ cellAddr x y + 1 < cellAddr x' y' := by
    simp only [cellAddr_eq, Config.width] at *
    omega
  simp only [State.hostCell, State.hostByte_memWrite]
  rw [if_neg (by omega), if_neg (by omega), if_neg (by omega), if_neg (by omega)]

/-- Settles O42: a PUTCAT in range is one cell write. -/
theorem hostSeesCellWritten : Obligations.HostSeesCellWritten := by
  intro s t c a x x' y y' hx hy hx' hy' ht
  cases exec_effect ht with
  | putcat _ _ _ _ _ =>
    split_ifs with h
    · obtain ⟨rfl, rfl⟩ := h
      exact s.hostCell_memWrite_same _ _ c a
    · exact s.hostCell_memWrite_other hx hx' (by simpa [BitVec.toNat_inj] using h) _
  | putcatCoord _ _ _ _ hl =>
    rw [(coordsLegal_iff x y).mpr ⟨hx, hy⟩] at hl
    cases hl

end Sys2Proof.Machine

/-! PROOFS. The statements of 20_memory.md: cell addresses, what a port read answers, the order of the accesses, and
the framebuffer that is never read. -/

namespace Sys2Proof.Machine

/-! ### The framebuffer is written, never read -/

/-- `s` with other framebuffer contents. -/
def State.withMem (s : State) (m : Memory) : State := { s with mem := m }

/-- Every command answers with a next state. -/
theorem exec_total (i : Instr) (s : State) : ∃ t, exec i s = .next t := by
  cases i <;> exact ⟨_, rfl⟩

/-- The converse of `exec_effect`: an effect of a command is its answer. -/
theorem Effect.exec_eq {s t : State} {i : Instr} (h : Effect s i t) : exec i s = .next t := by
  cases h with
  | init => rfl
  | clear a ha => simp only [exec, execClear, ha]
  | clearUninit hn => simp only [exec, execClear, hn]
  | setcolor a => rfl
  | putcat c a x y hl => exact congrArg Host.Outcome.next (if_pos hl)
  | putcatCoord c a x y hl => exact congrArg Host.Outcome.next (if_neg (by simp [hl]))
  | putc c => rfl
  | setcur x y hl => exact congrArg Host.Outcome.next (if_pos hl)
  | setcurCoord x y hl => exact congrArg Host.Outcome.next (if_neg (by simp [hl]))
  | kpollIdle hr => exact execKpoll_notReady hr
  | kpollDrop hr hd => exact execKpoll_drop hr hd
  | kpollForward c hr hd => exact execKpoll_forward hr hd

/-- `emit` decides by the registers and the policy, not by the framebuffer. -/
theorem State.emit_withMem (s : State) (m : Memory) (w : Word) (c : Byte) :
    ∃ m', (s.withMem m).emit w c = (s.emit w c).withMem m' := by
  have hline : (s.withMem m).breaksLine c = s.breaksLine c := rfl
  have hcursor : (s.withMem m).curValid = s.curValid := rfl
  have hwritten : (s.withMem m).consoleWritten = s.consoleWritten := rfl
  simp only [State.emit, hline, hcursor, hwritten]
  split_ifs
  · exact ⟨m, rfl⟩
  · exact ⟨m, rfl⟩
  · exact ⟨writeCell m s.cursorAddr (pack c s.attr), rfl⟩
  · exact ⟨m, rfl⟩

/-- No condition of an effect is about the framebuffer, and no effect carries its contents into another field. -/
theorem Effect.withMem {s t : State} {i : Instr} (h : Effect s i t) (m : Memory) :
    ∃ m', Effect (s.withMem m) i (t.withMem m') := by
  cases h with
  | init => exact ⟨_, .init⟩
  | clear a ha => exact ⟨_, .clear (s := s.withMem m) a ha⟩
  | clearUninit hn => exact ⟨_, .clearUninit (s := s.withMem m) hn⟩
  | setcolor a => exact ⟨_, .setcolor a⟩
  | putcat c a x y hl => exact ⟨_, .putcat c a x y hl⟩
  | putcatCoord c a x y hl => exact ⟨_, .putcatCoord c a x y hl⟩
  | putc c =>
    obtain ⟨m', he⟩ := s.emit_withMem m (encode (.putc c)) c
    exact ⟨m', he ▸ .putc c⟩
  | setcur x y hl => exact ⟨_, .setcur x y hl⟩
  | setcurCoord x y hl => exact ⟨_, .setcurCoord x y hl⟩
  | kpollIdle hr => exact ⟨_, .kpollIdle (s := s.withMem m) hr⟩
  | kpollDrop hr hd => exact ⟨_, .kpollDrop (s := s.withMem m) hr hd⟩
  | kpollForward c hr hd =>
    obtain ⟨m', he⟩ := s.polled.afterData.emit_withMem m (encode .kpoll) c
    exact ⟨m', he ▸ .kpollForward (s := s.withMem m) c hr hd⟩

/-- Settles O41: the effect of a command is its effect from any other framebuffer contents, but for those contents. -/
theorem framebufferNeverRead : Obligations.FramebufferNeverRead := by
  intro i s m
  obtain ⟨t, ht⟩ := exec_total i s
  obtain ⟨m', he⟩ := (exec_effect ht).withMem m
  exact ⟨t, m', ht, he.exec_eq⟩

/-! ### The order of the accesses -/

/-- `emit` adds no event, or one cell write. -/
theorem State.emit_history (s : State) (w : Word) (c : Byte) :
    (s.emit w c).history = s.history ∨ ∃ addr v, (s.emit w c).history = s.history ++ [.memWrite addr v] :=
  s.emit_elim w c (P := fun t => t.history = s.history ∨ ∃ addr v, t.history = s.history ++ [.memWrite addr v])
    (fun _ => .inl rfl) (fun _ => .inr ⟨_, _, rfl⟩) (fun _ => .inl rfl)

/-- A command that is not KPOLL adds framebuffer writes alone. -/
theorem exec_history_of_ne_kpoll {i : Instr} {s t : State} (h : exec i s = .next t) (hi : i ≠ .kpoll) :
    ∃ es, t.history = s.history ++ es ∧ ∀ e ∈ es, ∃ addr v, e = .memWrite addr v := by
  have hnone : s.history = s.history ++ [] := s.history.append_nil.symm
  have hfill : ∀ v, ∀ e ∈ fillEvents v, ∃ addr v', e = .memWrite addr v' := fun v e he => by
    obtain ⟨n, -, rfl⟩ := List.mem_map.mp he
    exact ⟨_, _, rfl⟩
  cases exec_effect h with
  | init => exact ⟨_, rfl, hfill _⟩
  | clear a _ => exact ⟨_, rfl, hfill _⟩
  | putcat c a x y _ => exact ⟨_, rfl, List.forall_mem_singleton.mpr ⟨_, _, rfl⟩⟩
  | putc c =>
    obtain he | ⟨addr, v, he⟩ := s.emit_history (encode (.putc c)) c
    · exact ⟨[], he.trans hnone, nofun⟩
    · exact ⟨_, he, List.forall_mem_singleton.mpr ⟨_, _, rfl⟩⟩
  | kpollIdle _ => exact absurd rfl hi
  | kpollDrop _ _ => exact absurd rfl hi
  | kpollForward c _ _ => exact absurd rfl hi
  | _ => exact ⟨[], hnone, nofun⟩

/-- KPOLL adds the status read, then at most the data read, then at most one cell write. -/
theorem exec_kpoll_history {s t : State} (h : exec .kpoll s = .next t) :
    ∃ es, t.history = s.history ++ es ∧
      (es = [.ioRead 0x64 s.statusByte] ∨ es = [.ioRead 0x64 s.statusByte, .ioRead 0x60 s.dataByte] ∨
        ∃ addr v, es = [.ioRead 0x64 s.statusByte, .ioRead 0x60 s.dataByte, .memWrite addr v]) := by
  cases exec_effect h with
  | kpollIdle _ => exact ⟨_, rfl, .inl rfl⟩
  | kpollDrop _ _ => exact ⟨_, s.afterData_polled_history, .inr (.inl rfl)⟩
  | kpollForward c _ _ =>
    obtain he | ⟨addr, v, he⟩ := s.polled.afterData.emit_history (encode .kpoll) c
    · exact ⟨_, he.trans s.afterData_polled_history, .inr (.inl rfl)⟩
    · refine ⟨_, ?_, .inr (.inr ⟨addr, v, rfl⟩)⟩
      rw [he, s.afterData_polled_history, List.append_assoc]
      rfl

/-- Settles O43: KPOLL has its own law, every other command writes cells alone. -/
theorem historyGrowsInOrder : Obligations.HistoryGrowsInOrder := by
  intro i s t h
  by_cases hi : i = .kpoll
  · subst hi
    obtain ⟨es, hes, hreads⟩ := exec_kpoll_history h
    exact ⟨es, hes, fun hn => absurd rfl hn, fun _ => hreads⟩
  · obtain ⟨es, hes, hwrites⟩ := exec_history_of_ne_kpoll h hi
    exact ⟨es, hes, fun _ => hwrites, fun hk => absurd hk hi⟩

/-! ### Cell addresses and port reads -/

/-- Settles O26: `y * 80 + x` with `x < 80` determines `x` and `y`. -/
theorem cellAddresses : Obligations.CellAddresses := by
  intro x y x' y' hx hy hx' hy'
  have hxy := cellAddr_eq x y
  have hxy' := cellAddr_eq x' y'
  exact ⟨hxy, by omega, by omega, by omega, fun _ => by omega⟩

theorem State.portByte_of_cons {s : State} {b : Byte} {rest : List Byte} (h : s.portScript = b :: rest) (port : Port) :
    s.portByte port = b := by
  simp only [State.portByte, h]

theorem State.portByte_of_nil {s : State} (h : s.portScript = []) (port : Port) :
    s.portByte port = Config.portByte port s.draws := by
  simp only [State.portByte, h]

/-- Settles O27, by whether the script has a byte left. -/
theorem portReadAnswers : Obligations.PortReadAnswers := by
  refine fun s port => ⟨fun b rest h => ?_, fun h => ?_⟩
  · have hb := State.portByte_of_cons h port
    exact ⟨hb, by simp [State.afterRead, hb, h]⟩
  · exact ⟨State.portByte_of_nil h port, by simp [State.afterRead, h]⟩

end Sys2Proof.Machine

/-! PROOFS. The statements of 30_encoding.md: decoding and encoding are inverse to each other, the words of the commands
as sums, and what the assembler makes of operands and pseudo-commands. -/

namespace Sys2Proof

/-! ### The patterns of R74, field by field -/

theorem Pattern.fits_iff {p : Pattern} {w : Word} : p.fits w = true ↔ w &&& p.mask = p.value := beq_iff_eq

/-- A pattern whose mask and value are given by fields asks something of each field of a word. -/
theorem fits_iff_fields (mo vo : BitVec 4) (my vy : Row) (mx vx : Col) (ma va mc vc : Byte) (w : Word) :
    (Pattern.mk (commandWord mo my mx ma mc) (commandWord vo vy vx va vc)).fits w = true ↔
      opField w &&& mo = vo ∧ yField w &&& my = vy ∧ xField w &&& mx = vx ∧ aField w &&& ma = va ∧
        cField w &&& mc = vc := by
  conv_lhs => rw [← commandWord_fields w]
  rw [fits_commandWord, decide_eq_true_iff]

theorem and_of_eq_allOnes {n : Nat} {x m : BitVec n} (h : m = BitVec.allOnes n) : x &&& m = x :=
  h ▸ BitVec.and_allOnes

section

variable {w : Word}

@[simp] theorem initPattern_fits_iff :
    initPattern.fits w = true ↔ opField w = 1 ∧ yField w = 0 ∧ xField w = 0 ∧ aField w = 0 ∧ cField w = 0 := by
  simp [initPattern_eq, fits_iff_fields, and_of_eq_allOnes]

@[simp] theorem clearPattern_fits_iff :
    clearPattern.fits w = true ↔ opField w = 2 ∧ yField w = 0 ∧ xField w = 0 ∧ aField w = 0 ∧ cField w = 0 := by
  simp [clearPattern_eq, fits_iff_fields, and_of_eq_allOnes]

@[simp] theorem setcolorPattern_fits_iff :
    setcolorPattern.fits w = true ↔ opField w = 3 ∧ yField w = 0 ∧ xField w = 0 ∧ cField w = 0 := by
  simp [setcolorPattern_eq, fits_iff_fields, and_of_eq_allOnes]

@[simp] theorem putcatPattern_fits_iff : putcatPattern.fits w = true ↔ opField w = 4 := by
  simp [putcatPattern_eq, fits_iff_fields, and_of_eq_allOnes]

@[simp] theorem putcPattern_fits_iff :
    putcPattern.fits w = true ↔ opField w = 5 ∧ yField w = 0 ∧ xField w = 0 ∧ aField w = 0 := by
  simp [putcPattern_eq, fits_iff_fields, and_of_eq_allOnes]

@[simp] theorem setcurPattern_fits_iff :
    setcurPattern.fits w = true ↔ opField w = 6 ∧ aField w = 0 ∧ cField w = 0 := by
  simp [setcurPattern_eq, fits_iff_fields, and_of_eq_allOnes]

@[simp] theorem kpollPattern_fits_iff :
    kpollPattern.fits w = true ↔ opField w = 7 ∧ yField w = 0 ∧ xField w = 0 ∧ aField w = 0 ∧ cField w = 0 := by
  simp [kpollPattern_eq, fits_iff_fields, and_of_eq_allOnes]

end

/-! ### Decoding and encoding -/

/-- `w` spells the command: it fits the command's pattern, and the operands are its fields. -/
inductive Spells (w : Word) : Instr → Prop
  | init (h : initPattern.fits w = true) : Spells w .init
  | clear (h : clearPattern.fits w = true) : Spells w .clear
  | setcolor (h : setcolorPattern.fits w = true) : Spells w (.setcolor (aField w))
  | putcat (h : putcatPattern.fits w = true) : Spells w (.putcat (cField w) (aField w) (xField w) (yField w))
  | putc (h : putcPattern.fits w = true) : Spells w (.putc (cField w))
  | setcur (h : setcurPattern.fits w = true) : Spells w (.setcur (xField w) (yField w))
  | kpoll (h : kpollPattern.fits w = true) : Spells w .kpoll

/-- `decode` answers a command only where the word spells it. -/
theorem spells_of_decode {w : Word} {i : Instr} (h : decode w = .ok i) : Spells w i := by
  unfold decode at h
  split_ifs at h with h₁ h₂ h₃ h₄ h₅ h₆ h₇ <;> cases h
  · exact .init h₁
  · exact .clear h₂
  · exact .setcolor h₃
  · exact .putcat h₄
  · exact .putc h₅
  · exact .setcur h₆
  · exact .kpoll h₇

/-- A word is the one built from given fields exactly when these are its fields. -/
theorem commandWord_eq_iff (op : BitVec 4) (y : Row) (x : Col) (a c : Byte) (w : Word) :
    commandWord op y x a c = w ↔ opField w = op ∧ yField w = y ∧ xField w = x ∧ aField w = a ∧ cField w = c := by
  conv_lhs => rw [← commandWord_fields w]
  rw [eq_comm, commandWord_inj]

/-- A pattern fixes OP and demands zero of the fields its command does not use: the other fields are the operands. -/
theorem Spells.encode_eq {w : Word} {i : Instr} (h : Spells w i) : encode i = w := by
  cases h with
  | init h => simpa [encode, commandWord_eq_iff] using h
  | clear h => simpa [encode, commandWord_eq_iff] using h
  | setcolor h => simpa [encode, commandWord_eq_iff] using h
  | putcat h => simpa [encode, commandWord_eq_iff] using h
  | putc h => simpa [encode, commandWord_eq_iff] using h
  | setcur h => simpa [encode, commandWord_eq_iff] using h
  | kpoll h => simpa [encode, commandWord_eq_iff] using h

/-- Settles O2, command by command: the OP of its word excludes every pattern but its own. -/
theorem decodeOfEncode : Obligations.DecodeOfEncode := by
  intro i
  cases i with
  | init => simp [decode, encode]
  | clear => simp [decode, encode]
  | setcolor a => simp [decode, encode]
  | putcat c a x y => simp [decode, encode]
  | putc c => simp [decode, encode]
  | setcur x y => simp [decode, encode]
  | kpoll => simp [decode, encode]

/-- Settles O3: a word that decodes spells the command, so it is the command's word. -/
theorem encodeOfDecode : Obligations.EncodeOfDecode := fun _ _ h => (spells_of_decode h).encode_eq

/-- A word decodes to the command it spells. -/
theorem Spells.decode_eq {w : Word} {i : Instr} (h : Spells w i) : decode w = .ok i :=
  h.encode_eq ▸ decodeOfEncode i

/-- Settles O5: a word decodes to exactly the command it spells. -/
theorem wordsDecodeByMaskAndMatch : Obligations.WordsDecodeByMaskAndMatch := by
  intro w
  refine ⟨fun h => (Spells.init (Pattern.fits_iff.mpr h)).decode_eq,
    fun h => (Spells.clear (Pattern.fits_iff.mpr h)).decode_eq,
    fun h => (Spells.setcolor (Pattern.fits_iff.mpr h)).decode_eq,
    fun h => (Spells.putcat (Pattern.fits_iff.mpr h)).decode_eq,
    fun h => (Spells.putc (Pattern.fits_iff.mpr h)).decode_eq,
    fun h => (Spells.setcur (Pattern.fits_iff.mpr h)).decode_eq,
    fun h => (Spells.kpoll (Pattern.fits_iff.mpr h)).decode_eq, ?_⟩
  intro hinit hclear hsetcolor hputcat hputc hsetcur hkpoll
  cases hd : decode w with
  | error r => exact ⟨r, rfl⟩
  | ok i =>
    cases spells_of_decode hd with
    | init h => exact absurd (Pattern.fits_iff.mp h) hinit
    | clear h => exact absurd (Pattern.fits_iff.mp h) hclear
    | setcolor h => exact absurd (Pattern.fits_iff.mp h) hsetcolor
    | putcat h => exact absurd (Pattern.fits_iff.mp h) hputcat
    | putc h => exact absurd (Pattern.fits_iff.mp h) hputc
    | setcur h => exact absurd (Pattern.fits_iff.mp h) hsetcur
    | kpoll h => exact absurd (Pattern.fits_iff.mp h) hkpoll

/-- Settles O1: twelve closed words. -/
theorem specWordsDecode : Obligations.SpecWordsDecode := by
  unfold Obligations.SpecWordsDecode
  decide

/-- Settles O4: each word is the sum of its shifted fields, those that are zero left out. -/
theorem encodedWordArithmetic : Obligations.EncodedWordArithmetic := by
  refine ⟨rfl, rfl, rfl, fun a => ?_, fun c => ?_, fun x y => ?_, fun c a x y => ?_⟩
  all_goals simp [encode, toNat_commandWord]

end Sys2Proof

namespace Sys2Proof.Machine

/-! ### The assembler's operands (30_encoding.md R78, R79) -/

/-- A statement of one command, refused unless its operands fit: the word it assembles to is known by its number. -/
theorem map_encode_guarded {fit : Prop} [Decidable fit] {i : Instr} {n : Nat} (h : fit → (encode i).toNat = n) :
    (if fit then some [i] else none).map (·.map encode) = if fit then some [BitVec.ofNat 32 n] else none := by
  split_ifs with hfit
  · simp [← h hfit]
  · rfl

/-- `make_attr` as a number: the nibbles do not overlap. -/
theorem toNat_makeAttr (fg bg : BitVec 4) : (makeAttr fg bg).toNat = fg.toNat + bg.toNat * 2 ^ 4 := by
  have happend : makeAttr fg bg = bg ++ fg := by
    ext i hi
    simp only [makeAttr, ← BitVec.getLsbD_eq_getElem, BitVec.getLsbD_or, BitVec.getLsbD_shiftLeft,
      BitVec.getLsbD_setWidth, BitVec.getLsbD_append]
    grind
  rw [happend, BitVec.toNat_append, ← Nat.shiftLeft_add_eq_or_of_lt fg.isLt, Nat.shiftLeft_eq, Nat.add_comm]

/-- A number at most the largest of the field, as R78 gives the bounds, is the value of the field. -/
theorem toNat_ofNat_of_le {w n m : Nat} (h : n ≤ m) (hm : m < 2 ^ w) : (BitVec.ofNat w n).toNat = n := by
  rw [BitVec.toNat_ofNat, Nat.mod_eq_of_lt (by omega)]

/-- Settles O50: an operand that fits its field keeps its value there, and the words are the sums of O4. -/
theorem assemblerRefusesWideOperands : Obligations.AssemblerRefusesWideOperands := by
  obtain ⟨-, -, -, hsetcolor, hputc, hsetcur, hputcat⟩ := encodedWordArithmetic
  refine ⟨fun a => map_encode_guarded fun ha => ?_, fun c => map_encode_guarded fun hc => ?_,
    fun x y => map_encode_guarded fun ⟨hx, hy⟩ => ?_, fun c a x y => map_encode_guarded fun ⟨hc, ha, hx, hy⟩ => ?_,
    fun fg bg => ite_congr rfl (fun ⟨hfg, hbg⟩ => ?_) fun _ => rfl⟩
  · rw [hsetcolor, toNat_ofNat_of_le ha (by decide)]
  · rw [hputc, toNat_ofNat_of_le hc (by decide)]
  · rw [hsetcur, toNat_ofNat_of_le hx (by decide), toNat_ofNat_of_le hy (by decide)]
  · rw [hputcat, toNat_ofNat_of_le hc (by decide), toNat_ofNat_of_le ha (by decide), toNat_ofNat_of_le hx (by decide),
      toNat_ofNat_of_le hy (by decide)]
  · rw [toNat_makeAttr, toNat_ofNat_of_le hfg (by decide), toNat_ofNat_of_le hbg (by decide)]

/-! ### The pseudo-commands (30_encoding.md R81-R83) -/

/-- The `strlen` of R82: the bytes from the first NUL on are left out. -/
theorem untilNul_append_nul {pre : List Byte} (h : ∀ b ∈ pre, b ≠ 0) (post : List Byte) :
    untilNul (pre ++ 0 :: post) = pre := by
  rw [untilNul, List.takeWhile_append_of_pos fun b hb => bne_iff_ne.mpr (h b hb)]
  exact pre.append_nil

theorem untilNul_of_no_nul {bytes : List Byte} (h : ∀ b ∈ bytes, b ≠ 0) : untilNul bytes = bytes :=
  List.takeWhile_eq_self_iff.mpr fun b hb => bne_iff_ne.mpr (h b hb)

theorem assemble_write (bytes : List Byte) :
    (AsmStmt.write bytes).assemble = some (bytes.map fun b => encode (.putc b)) :=
  congrArg some List.map_map

theorem assemble_writestr (bytes : List Byte) :
    (AsmStmt.writestr bytes).assemble = (AsmStmt.write (untilNul bytes)).assemble := rfl

/-- The operands of SETCUR that are values of its fields are not refused. -/
theorem setcurCommands_toNat (x : Col) (y : Row) : setcurCommands x.toNat y.toNat = some [.setcur x y] := by
  rw [setcurCommands, if_pos ⟨Nat.le_of_lt_succ x.isLt, Nat.le_of_lt_succ y.isLt⟩, BitVec.ofNat_toNat,
    BitVec.ofNat_toNat, BitVec.setWidth_eq, BitVec.setWidth_eq]

theorem assemble_writestrat (bytes : List Byte) (x : Col) (y : Row) :
    (AsmStmt.writestrat bytes x.toNat y.toNat).assemble =
      (AsmStmt.writestr bytes).assemble.map (encode (.setcur x y) :: ·) := by
  simp only [AsmStmt.assemble, AsmStmt.commands, setcurCommands_toNat]
  rfl

/-- Settles O49, by the equations of the three pseudo-commands. -/
theorem pseudoCommandExpansion : Obligations.PseudoCommandExpansion := by
  refine ⟨assemble_write, fun pre post h => ⟨?_, ?_⟩, fun bytes x y ws h => ?_⟩
  · rw [assemble_writestr, untilNul_append_nul h, assemble_write]
  · rw [assemble_writestr, untilNul_of_no_nul h, assemble_write]
  · rw [assemble_writestrat, h, Option.map_some]

end Sys2Proof.Machine

/-! PROOFS. The statements of 40_console.md: the cursor's next place, packed cells, what each console command does and
leaves unchanged, and what a sequence of characters leaves on the screen. -/

namespace Sys2Proof.Machine

/-! ### The cursor's next place and packed cells (R100, R101) -/

/-- The last row is row 24. -/
theorem nextRow_eq (row : Nat) : nextRow row = if row = 24 then 0 else row + 1 := by
  simp [nextRow, Config.height]

/-- `advance` in the grid: along the row, from its end to the next row, from the last row to the first. -/
theorem advance_eq {col row : Nat} (hc : col < Config.width) (hr : row < Config.height) :
    advance col row = if col < 79 then (col + 1, row) else if row < 24 then (0, row + 1) else (0, 0) := by
  have hw : Config.width = 80 := rfl
  have hh : Config.height = 25 := rfl
  by_cases hend : col < 79
  · rw [advance, if_neg (by omega), if_pos hend]
  · rw [advance, if_pos (by omega), if_neg hend, nextRow_eq]
    by_cases hlast : row < 24
    · rw [if_neg (by omega), if_pos hlast]
    · rw [if_pos (by omega), if_neg hlast]

/-- Settles O24, by the places of `advance_eq`. -/
theorem cursorAdvance : Obligations.CursorAdvance := by
  intro col row hc hr
  obtain ⟨hcol, hrow⟩ := advance_lt hc hr
  refine ⟨hcol, hrow, ?_⟩
  rw [advance_eq hc hr]
  split_ifs with hend hlast
  · exact ⟨fun _ => rfl, by omega, by omega, by simp only; omega⟩
  · exact ⟨by omega, fun _ _ => rfl, by omega, by simp only; omega⟩
  · exact ⟨by omega, by omega, fun _ _ => rfl, by simp only; omega⟩

/-- `pack` as a number: the bytes do not overlap. -/
theorem toNat_pack (c a : Byte) : (pack c a).toNat = a.toNat * 256 + c.toNat := by
  rw [pack_eq_append, BitVec.toNat_append, ← Nat.shiftLeft_add_eq_or_of_lt c.isLt, Nat.shiftLeft_eq]

theorem makeAttr_low (fg bg : BitVec 4) : (makeAttr fg bg).extractLsb' 0 4 = fg := by
  have hfg := fg.isLt
  apply BitVec.eq_of_toNat_eq
  rw [BitVec.extractLsb'_toNat, toNat_makeAttr, Nat.shiftRight_zero]
  omega

theorem makeAttr_high (fg bg : BitVec 4) : (makeAttr fg bg).extractLsb' 4 4 = bg := by
  have hfg := fg.isLt
  have hbg := bg.isLt
  apply BitVec.eq_of_toNat_eq
  rw [BitVec.extractLsb'_toNat, toNat_makeAttr, Nat.shiftRight_eq_div_pow]
  omega

/-- Settles O25: neither the bytes nor the nibbles overlap. -/
theorem packedFields : Obligations.PackedFields :=
  ⟨fun c a => ⟨toNat_pack c a, pack_low c a, pack_high c a⟩,
    fun fg bg => ⟨(toNat_makeAttr fg bg).trans (Nat.add_comm ..), makeAttr_low fg bg, makeAttr_high fg bg⟩⟩

/-! ### SETCOLOR and SETCUR (R106, R110) -/

theorem coordsLegal_eq_false_iff (x : Col) (y : Row) : coordsLegal x y = false ↔ 80 ≤ x.toNat ∨ 25 ≤ y.toNat := by
  rw [← Bool.not_eq_true, coordsLegal_iff]
  simp only [Config.width, Config.height]
  omega

/-- Settles O19, by the one effect of SETCOLOR. -/
theorem setcolorResult : Obligations.SetcolorResult := by
  obtain ⟨-, -, -, hword, -⟩ := encodedWordArithmetic
  exact fun s a => ⟨hword a, (Effect.setcolor a).exec_eq⟩

/-- Settles O23, by the two effects of SETCUR. -/
theorem setcurResult : Obligations.SetcurResult := by
  obtain ⟨-, -, -, -, -, hword, -⟩ := encodedWordArithmetic
  exact fun s x y => ⟨hword x y, fun hx hy => (Effect.setcur x y ((coordsLegal_iff x y).mpr ⟨hx, hy⟩)).exec_eq,
    fun h => (Effect.setcurCoord x y ((coordsLegal_eq_false_iff x y).mpr h)).exec_eq⟩

/-- Settles O37: neither effect of SETCUR, nor that of SETCOLOR, writes another field. -/
theorem registerCommandFrame : Obligations.RegisterCommandFrame := by
  refine ⟨fun s t a hx => ?_, fun s t x y hx => ?_⟩
  · cases exec_effect hx
    exact ⟨fun _ => rfl, rfl⟩
  · cases exec_effect hx with
    | setcur x y _ => exact ⟨fun _ => rfl, rfl⟩
    | setcurCoord x y _ => exact ⟨fun _ => rfl, rfl⟩

/-! ### INIT and CLEAR (R102, R104, R105) -/

/-- What a repaint leaves in each cell. -/
theorem readByte_fillCells_pack (m : Memory) (c a : Byte) {i : Nat} (h : i < 2000) :
    readByte (fillCells m (pack c a)) (0xB8000 + 2 * i) = some c ∧
      readByte (fillCells m (pack c a)) (0xB8000 + 2 * i + 1) = some a :=
  ⟨(readByte_fillCells_char m _ h).trans (congrArg some (pack_low c a)),
    (readByte_fillCells_attr m _ h).trans (congrArg some (pack_high c a))⟩

/-- A repaint as the statements write it: the 2000 writes of the cell, character in the low byte. -/
theorem State.repaint_pack (s : State) (c a : Byte) :
    s.repaint (pack c a) = { s with
      mem := fillCells s.mem (pack c a)
      history := s.history ++ (List.range 2000).map fun i => .memWrite (0xB8000 + 2 * i) (a ++ c) } := by
  rw [State.repaint, fillEvents, pack_eq_append]
  rfl

/-- Settles O16: the one effect of INIT repaints from any state. -/
theorem initResult : Obligations.InitResult := by
  obtain ⟨hword, -⟩ := encodedWordArithmetic
  exact ⟨hword, fun s => ⟨_, Effect.init.exec_eq, fun i hi => readByte_fillCells_pack s.mem _ _ hi,
    fun addr => readByte_fillCells_outside s.mem _, State.repaint_pack _ _ _⟩⟩

/-- CLEAR under DEFAULT, or with `attr` written, has a byte to paint with. -/
theorem State.clearAttr_eq_some_iff (s : State) (a : Byte) :
    s.clearAttr = some a ↔
      (s.params.clearFill = .current ∧ s.attrValid = true ∧ a = s.attr) ∨
        (s.params.clearFill = .default ∧ a = 0x0F) := by
  cases hfill : s.params.clearFill with
  | current => simp [State.clearAttr, hfill, @eq_comm _ a]
  | default => simp [State.clearAttr, hfill, Config.defaultAttr, @eq_comm _ a]

theorem State.clearAttr_eq_none_iff (s : State) :
    s.clearAttr = none ↔ s.params.clearFill = .current ∧ s.attrValid = false := by
  cases hfill : s.params.clearFill <;> simp [State.clearAttr, hfill]

/-- The state after a CLEAR that paints with `a`. -/
def State.cleared (s : State) (a : Byte) : State := (s.repaint (pack Config.fillChar a)).setCursor 0 0

theorem exec_clear_of_some {s : State} {a : Byte} (h : s.clearAttr = some a) : exec .clear s = .next (s.cleared a) :=
  (Effect.clear a h).exec_eq

@[simp] theorem State.clearAttr_cleared (s : State) (a : Byte) : (s.cleared a).clearAttr = s.clearAttr := rfl

/-- A CLEAR where the cursor is at (0, 0) and the cells are painted already adds its events and nothing else. -/
theorem State.cleared_of_painted {t : State} {a : Byte} {m : Memory} (hm : m.wf)
    (hmem : t.mem = fillCells m (pack Config.fillChar a)) (hcol : t.col = 0) (hrow : t.row = 0)
    (hcur : t.curValid = true) :
    t.cleared a = { t with history := t.history ++ fillEvents (pack Config.fillChar a) } := by
  simp only [State.cleared, State.repaint, State.setCursor, hmem, fillCells_fillCells hm, hcol, hrow, hcur]

/-- Settles O17: CLEAR faults where `attr` must be read unwritten, and a second painting changes no cell. -/
theorem clearResult : Obligations.ClearResult := by
  obtain ⟨-, hword, -⟩ := encodedWordArithmetic
  refine ⟨hword, fun s hfill hattr => ?_, fun s a ha => ?_, fun s t hwf _ hok hx => ?_⟩
  · exact (Effect.clearUninit (s.clearAttr_eq_none_iff.mpr ⟨hfill, hattr⟩)).exec_eq
  · refine ⟨_, exec_clear_of_some ((s.clearAttr_eq_some_iff a).mpr ha),
      fun i hi => readByte_fillCells_pack s.mem _ _ hi, fun addr => readByte_fillCells_outside s.mem _, ?_⟩
    exact congrArg (·.setCursor 0 0) (s.repaint_pack _ a)
  · obtain hx | hx := hx
    · cases exec_effect hx
      refine ⟨_, exec_clear_of_some (a := Config.defaultAttr) ((State.clearAttr_eq_some_iff _ _).mpr ?_),
        State.cleared_of_painted hwf rfl rfl rfl rfl⟩
      cases hfill : s.params.clearFill with
      | current => exact .inl ⟨hfill, rfl, rfl⟩
      | default => exact .inr ⟨hfill, rfl⟩
    · cases exec_effect hx with
      | clear a ha => exact ⟨_, exec_clear_of_some ha, State.cleared_of_painted hwf rfl rfl rfl rfl⟩
      | clearUninit _ => cases hok

/-- Settles O18: the second CLEAR paints the same cell over painted cells. -/
theorem clearIsIdempotent : Obligations.ClearIsIdempotent := by
  intro s hwf hfill
  obtain ⟨a, ha⟩ : ∃ a, s.clearAttr = some a := by
    rw [← Option.ne_none_iff_exists', Ne, s.clearAttr_eq_none_iff]
    exact fun ⟨hcurrent, hattr⟩ => by simp [hfill hcurrent] at hattr
  exact ⟨_, _, exec_clear_of_some ha, exec_clear_of_some (s.clearAttr_cleared a ▸ ha), fillCells_fillCells hwf _,
    rfl, rfl, rfl, rfl, rfl, rfl, _, rfl, rfl⟩

/-- Settles O39: each effect of INIT and CLEAR repaints or raises. -/
theorem repaintFrame : Obligations.RepaintFrame := by
  refine ⟨fun s t hx => ?_, fun s t hx => ?_⟩
  · cases exec_effect hx
    exact ⟨fun addr => readByte_fillCells_outside s.mem _, rfl⟩
  · cases exec_effect hx with
    | clear a _ => exact ⟨fun addr => readByte_fillCells_outside s.mem _, rfl⟩
    | clearUninit _ => exact ⟨fun _ _ => rfl, rfl⟩

/-! ### PUTCAT and PUTC (R107, R108, R109) -/

/-- A read after a packed cell was written: its two bytes, or the byte that was there. -/
theorem readByte_writeCell_pack (m : Memory) (addr : Nat) (c a : Byte) (k : Nat) :
    readByte (writeCell m addr (pack c a)) k =
      if k = addr then some c else if k = addr + 1 then some a else readByte m k := by
  rw [readByte_writeCell, pack_low, pack_high]
  by_cases h : k = addr
  · rw [if_neg (by omega), if_pos h, if_pos h]
  · rw [if_neg h, if_neg h]

/-- Settles O20, by the two effects of PUTCAT. -/
theorem putcatResult : Obligations.PutcatResult := by
  obtain ⟨-, -, -, -, -, -, hword⟩ := encodedWordArithmetic
  refine fun s c a x y => ⟨hword c a x y, fun hx hy => ?_, fun h => ?_⟩
  · refine ⟨_, (Effect.putcat c a x y ((coordsLegal_iff x y).mpr ⟨hx, hy⟩)).exec_eq,
      readByte_writeCell_pack s.mem _ c a, ?_⟩
    rw [pack_eq_append]
    rfl
  · exact (Effect.putcatCoord c a x y ((coordsLegal_eq_false_iff x y).mpr h)).exec_eq

theorem State.breaksLine_eq_false_iff (s : State) (c : Byte) :
    s.breaksLine c = false ↔ s.params.lfPolicy = .glyph ∨ c ≠ 0x0A := by
  cases hlf : s.params.lfPolicy <;> simp [State.breaksLine, hlf, Config.lineFeed]

theorem State.breaksLine_newline {s : State} (h : s.params.lfPolicy = .newline) : s.breaksLine 0x0A = true := by
  simp [State.breaksLine, h, Config.lineFeed]

/-- The state after `c` is written as a glyph: the cell at the cursor, and the cursor moved on. -/
def State.putGlyph (s : State) (c : Byte) : State := (s.memWrite s.cursorAddr (pack c s.attr)).advanceCursor

section Emit

variable {s : State} {c : Byte}

theorem State.emit_line (hc : s.breaksLine c = true) (hcur : s.curValid = true) (w : Word) :
    s.emit w c = s.newLine := by
  rw [State.emit, if_pos hc, if_pos hcur]

theorem State.emit_line_unwritten (hc : s.breaksLine c = true) (hcur : s.curValid = false) (w : Word) :
    s.emit w c = s.raise .uninit w := by
  rw [State.emit, if_pos hc, hcur, if_neg Bool.false_ne_true]

theorem State.emit_glyph (hc : s.breaksLine c = false) (hready : ConsoleReady s) (w : Word) :
    s.emit w c = s.putGlyph c := by
  rw [State.emit, hc, if_neg Bool.false_ne_true, if_pos hready.consoleWritten, State.putGlyph]

theorem State.emit_glyph_unwritten (hc : s.breaksLine c = false) (h : s.curValid = false ∨ s.attrValid = false)
    (w : Word) : s.emit w c = s.raise .uninit w := by
  have hw : s.consoleWritten = false := Bool.and_eq_false_iff.mpr h
  rw [State.emit, hc, if_neg Bool.false_ne_true, hw, if_neg Bool.false_ne_true]

end Emit

theorem exec_putc (s : State) (c : Byte) : exec (.putc c) s = .next (s.emit (encode (.putc c)) c) := rfl

/-- The cursor after a glyph. -/
theorem State.putGlyph_place {s : State} (hcol : s.col.toNat < Config.width) (hrow : s.row.toNat < Config.height)
    (c : Byte) :
    ((s.putGlyph c).col.toNat, (s.putGlyph c).row.toNat) = advance s.col.toNat s.row.toNat :=
  Prod.ext (State.advanceCursor_col_toNat hcol hrow) (State.advanceCursor_row_toNat hcol hrow)

/-- With the cursor written, moving it writes no validity bit. -/
theorem State.setCursor_of_curValid {s : State} (h : s.curValid = true) (x : Col) (y : Row) :
    s.setCursor x y = { s with col := x, row := y } := by
  simp only [State.setCursor, ← h]

/-- With the cursor written, a glyph changes the cursor's place, one cell and the history. -/
theorem State.putGlyph_eq {s : State} (h : s.curValid = true) (c : Byte) :
    s.putGlyph c = { s with
      col := BitVec.ofNat 7 (advance s.col.toNat s.row.toNat).1
      row := BitVec.ofNat 5 (advance s.col.toNat s.row.toNat).2
      mem := writeCell s.mem s.cursorAddr (pack c s.attr)
      history := s.history ++ [.memWrite s.cursorAddr (pack c s.attr)] } :=
  State.setCursor_of_curValid (s := s.memWrite _ _) h _ _

/-- Settles O21: PUTC of a glyph is `putGlyph`, or UNINIT with a register unwritten. -/
theorem putcResult : Obligations.PutcResult := by
  obtain ⟨-, -, -, -, hword, -⟩ := encodedWordArithmetic
  intro s c hc
  have hglyph := (s.breaksLine_eq_false_iff c).mpr hc
  refine ⟨hword c, fun h => congrArg _ (State.emit_glyph_unwritten hglyph h _), fun hcur hattr hcol hrow => ?_⟩
  refine ⟨s.putGlyph c, congrArg _ (State.emit_glyph hglyph ⟨hcur, hattr⟩ _), readByte_writeCell_pack s.mem _ c s.attr,
    (State.putGlyph_place hcol hrow c).trans (advance_eq hcol hrow), ?_⟩
  rw [State.putGlyph_eq hcur, pack_eq_append]
  rfl

/-- Settles O22: under NEWLINE a line feed is `newLine` or UNINIT, and every other byte is a glyph. -/
theorem putcNewlineResult : Obligations.PutcNewlineResult := by
  refine ⟨fun s hlf => ⟨fun hcur => ?_, fun hcur hrow => ?_⟩, fun s c hc hcur hattr => ?_⟩
  · rw [exec_putc, State.emit_line_unwritten (State.breaksLine_newline hlf) hcur]
    rfl
  · refine ⟨s.newLine.row, (State.newLine_row_toNat hrow).trans (nextRow_eq _), ?_⟩
    rw [exec_putc, State.emit_line (State.breaksLine_newline hlf) hcur]
    exact congrArg _ (State.setCursor_of_curValid hcur _ _)
  · refine ⟨s.putGlyph c, congrArg _ (State.emit_glyph ((s.breaksLine_eq_false_iff c).mpr hc) ⟨hcur, hattr⟩ _), ?_⟩
    exact (readByte_writeCell_pack s.mem s.cursorAddr c s.attr _).trans (if_pos rfl)

/-! ### What `emit` leaves unchanged -/

/-- `emit` stores to the cell at the cursor alone. -/
theorem State.readByte_emit_outside (s : State) (w : Word) (c : Byte) {k : Nat} (h : k ≠ s.cursorAddr)
    (h' : k ≠ s.cursorAddr + 1) : readByte (s.emit w c).mem k = readByte s.mem k := by
  obtain hm | hm := s.emit_mem w c
  · rw [hm]
  · rw [hm, readByte_writeCell_other h h']

/-- A line break stores nothing, nor does a fault in its place. -/
theorem State.emit_mem_of_breaksLine {s : State} {c : Byte} (h : s.breaksLine c = true) (w : Word) :
    (s.emit w c).mem = s.mem := by
  rw [State.emit, if_pos h]
  split <;> rfl

/-- `emit` writes the cursor, the framebuffer, the history and the fault state, and no other field. -/
theorem State.emit_frame (s : State) (w : Word) (c : Byte) :
    s.emit w c = { s with
      col := (s.emit w c).col, row := (s.emit w c).row, mem := (s.emit w c).mem, history := (s.emit w c).history
      faulted := (s.emit w c).faulted, faultCode := (s.emit w c).faultCode, faultWord := (s.emit w c).faultWord } := by
  refine s.emit_elim w c (P := fun t => t = { s with
    col := t.col, row := t.row, mem := t.mem, history := t.history
    faulted := t.faulted, faultCode := t.faultCode, faultWord := t.faultWord }) (fun hcur => ?_) (fun hw => ?_)
    (fun _ => rfl)
  · exact State.setCursor_of_curValid hcur _ _
  · exact State.putGlyph_eq ((State.consoleWritten_iff s).mp hw).1 c

/-- Settles O38: PUTCAT writes its cell or raises; PUTC is `emit`; KPOLL is its reads and at most one `emit`. -/
theorem cellCommandFrame : Obligations.CellCommandFrame := by
  refine ⟨fun s t c a x y hx => ?_, fun s t c hx => ?_, fun s t hx => ?_⟩
  · cases exec_effect hx with
    | putcat _ _ _ _ _ => exact ⟨fun _ => readByte_writeCell_other, rfl⟩
    | putcatCoord _ _ _ _ _ => exact ⟨fun _ _ _ => rfl, rfl⟩
  · cases exec_effect hx
    refine ⟨fun _ => s.readByte_emit_outside _ c, ?_, s.emit_frame _ c⟩
    rintro hlf rfl
    exact State.emit_mem_of_breaksLine (State.breaksLine_newline hlf) _
  · cases exec_effect hx with
    | kpollIdle _ => exact ⟨fun _ _ _ => rfl, fun _ => rfl, rfl⟩
    | kpollDrop _ _ => exact ⟨fun _ _ _ => rfl, fun _ => rfl, rfl⟩
    | kpollForward c _ hd =>
      refine ⟨fun _ => s.polled.afterData.readByte_emit_outside _ c, fun hn => ?_, ?_⟩
      · rw [hd] at hn
        cases hn
      · rw [s.polled.afterData.emit_frame (encode .kpoll) c]
        rfl

/-! ### Sequences of glyphs (R114, R115) -/

/-- The writes of `bytes` with `attr` at `a` from the linear place `n` on. -/
def glyphEvents (n : Nat) (a : Byte) (bytes : List Byte) : List Event :=
  bytes.mapIdx fun k b => .memWrite (0xB8000 + 2 * ((n + k) % 2000)) (a ++ b)

theorem glyphEvents_concat (n : Nat) (a : Byte) (bytes : List Byte) (b : Byte) :
    glyphEvents n a (bytes ++ [b]) =
      glyphEvents n a bytes ++ [.memWrite (0xB8000 + 2 * ((n + bytes.length) % 2000)) (a ++ b)] :=
  List.mapIdx_concat

/-- The last byte is written on top of the others. -/
theorem readByte_replay_glyphEvents_concat (m : Memory) (n : Nat) (a : Byte) (bytes : List Byte) (b : Byte) (k : Nat) :
    readByte (replay m (glyphEvents n a (bytes ++ [b]))) k =
      if k = 0xB8000 + 2 * ((n + bytes.length) % 2000) then some b
      else if k = 0xB8000 + 2 * ((n + bytes.length) % 2000) + 1 then some a
      else readByte (replay m (glyphEvents n a bytes)) k := by
  rw [glyphEvents_concat, replay_append, ← pack_eq_append]
  exact readByte_writeCell_pack _ _ b a k

/-- A byte of memory in none of the cells is as before. -/
theorem readByte_replay_glyphEvents_other {n k : Nat} {bytes : List Byte} (m : Memory) (a : Byte)
    (h : ∀ j, j < bytes.length → k ≠ 0xB8000 + 2 * ((n + j) % 2000) ∧ k ≠ 0xB8000 + 2 * ((n + j) % 2000) + 1) :
    readByte (replay m (glyphEvents n a bytes)) k = readByte m k := by
  induction bytes using List.reverseRecOn with
  | nil => rfl
  | append_singleton bytes b ih =>
    rw [List.length_append, List.length_singleton] at h
    obtain ⟨hchar, hattr⟩ := h bytes.length (Nat.lt_succ_self _)
    rw [readByte_replay_glyphEvents_concat, if_neg hchar, if_neg hattr]
    exact ih fun j hj => h j (Nat.lt_succ_of_lt hj)

/-- Each of the last 2000 bytes stands in its cell: the writes that follow go to other cells. -/
theorem readByte_replay_glyphEvents_last {n k : Nat} {bytes : List Byte} (m : Memory) (a : Byte) (h : k < bytes.length)
    (hlast : bytes.length ≤ k + 2000) :
    readByte (replay m (glyphEvents n a bytes)) (0xB8000 + 2 * ((n + k) % 2000)) = some bytes[k] ∧
      readByte (replay m (glyphEvents n a bytes)) (0xB8000 + 2 * ((n + k) % 2000) + 1) = some a := by
  induction bytes using List.reverseRecOn with
  | nil => exact absurd h (Nat.not_lt_zero k)
  | append_singleton bytes b ih =>
    rw [List.length_append, List.length_singleton] at h hlast
    simp only [readByte_replay_glyphEvents_concat]
    obtain rfl | hk : k = bytes.length ∨ k < bytes.length := by omega
    · rw [if_pos rfl, if_neg (by omega), if_pos rfl, List.getElem_concat_length rfl]
      exact ⟨rfl, rfl⟩
    · rw [if_neg (by omega), if_neg (by omega), if_neg (by omega), if_neg (by omega), List.getElem_append_left hk]
      exact ih hk (by omega)

/-- `advance` on the place of a linear position is the place of the next one. -/
theorem advance_linear {n : Nat} (h : n < 2000) :
    advance (n % 80) (n / 80) = ((n + 1) % 2000 % 80, (n + 1) % 2000 / 80) := by
  obtain ⟨hcol, hrow, -, -, -, hnext⟩ := cursorAdvance (n % 80) (n / 80) (by omega) (by omega)
  exact Prod.ext (by simp only; omega) (by simp only; omega)

/-- The state after every byte of `bytes` is written as a glyph. -/
def State.written (s : State) (bytes : List Byte) : State :=
  { s with
    col := BitVec.ofNat 7 ((s.linear + bytes.length) % 2000 % 80)
    row := BitVec.ofNat 5 ((s.linear + bytes.length) % 2000 / 80)
    mem := replay s.mem (glyphEvents s.linear s.attr bytes)
    pos := s.pos + bytes.length
    history := s.history ++ glyphEvents s.linear s.attr bytes }

theorem State.written_col_toNat (s : State) (bytes : List Byte) :
    (s.written bytes).col.toNat = (s.linear + bytes.length) % 2000 % 80 :=
  Nat.mod_eq_of_lt (by omega)

theorem State.written_row_toNat (s : State) (bytes : List Byte) :
    (s.written bytes).row.toNat = (s.linear + bytes.length) % 2000 / 80 :=
  Nat.mod_eq_of_lt (by omega)

theorem State.written_linear (s : State) (bytes : List Byte) :
    (s.written bytes).linear = (s.linear + bytes.length) % 2000 := by
  rw [State.linear, State.written_col_toNat, State.written_row_toNat]
  exact Nat.div_add_mod' _ 80

/-- No byte written is no change, with the cursor in the grid. -/
theorem State.written_nil {s : State} (hcol : s.col.toNat < Config.width) (hrow : s.row.toNat < Config.height) :
    s.written [] = s := by
  have hlinear : s.linear = s.row.toNat * 80 + s.col.toNat := rfl
  have hw : Config.width = 80 := rfl
  have hh : Config.height = 25 := rfl
  have hc : (s.written []).col = s.col :=
    BitVec.eq_of_toNat_eq (by rw [State.written_col_toNat, List.length_nil]; omega)
  have hr : (s.written []).row = s.row :=
    BitVec.eq_of_toNat_eq (by rw [State.written_row_toNat, List.length_nil]; omega)
  calc s.written [] = { s with col := (s.written []).col, row := (s.written []).row, history := s.history ++ [] } := rfl
    _ = s := by rw [hc, hr, List.append_nil]

/-- One glyph more. -/
theorem State.retire_putGlyph_written {s : State} (hcur : s.curValid = true) (hf : s.faulted = false)
    (bytes : List Byte) (b : Byte) : ((s.written bytes).putGlyph b).retire = s.written (bytes ++ [b]) := by
  have haddr : (s.written bytes).cursorAddr = 0xB8000 + 2 * ((s.linear + bytes.length) % 2000) :=
    congrArg indexAddr (s.written_linear bytes)
  have hadv : advance (s.written bytes).col.toNat (s.written bytes).row.toNat =
      ((s.linear + (bytes ++ [b]).length) % 2000 % 80, (s.linear + (bytes ++ [b]).length) % 2000 / 80) := by
    rw [State.written_col_toNat, State.written_row_toNat, advance_linear (by omega), Nat.mod_add_mod,
      List.length_append, List.length_singleton, Nat.add_assoc]
  rw [State.putGlyph_eq (s := s.written bytes) hcur, hadv, haddr, pack_eq_append, State.retire,
    if_neg (by simp [State.written, hf])]
  simp only [State.written, glyphEvents_concat, replay_append, List.append_assoc, List.length_append]
  rfl

/-- A step at a PUTC under GLYPH, both registers written. -/
theorem step_putc_glyph {s : State} {c : Byte} (hf : s.faulted = false) (hready : ConsoleReady s)
    (hlf : s.params.lfPolicy = .glyph) (hw : s.fetch = some (encode (.putc c))) :
    step s = .next (s.putGlyph c).retire := by
  rw [step_of_command hf hw (decodeOfEncode _), exec_putc, State.emit_glyph (State.breaksLine_glyph hlf c) hready,
    retireOutcome]

/-- A run over the words of PUTC of `bytes` writes them as glyphs. -/
theorem runFor_putc {s : State} {before after : List Word} {bytes : List Byte} (hf : s.faulted = false)
    (hready : ConsoleReady s) (hgrid : CursorInGrid s) (hlf : s.params.lfPolicy = .glyph)
    (hwords : s.words = before ++ bytes.map (fun b => encode (.putc b)) ++ after) (hpos : s.pos = before.length) :
    runFor bytes.length s = .next (s.written bytes) := by
  have ⟨hcur, _⟩ := hready
  induction bytes using List.reverseRecOn generalizing after with
  | nil =>
    obtain ⟨hcol, hrow⟩ := hgrid hcur
    rw [State.written_nil hcol hrow]
    rfl
  | append_singleton bytes b ih =>
    have hrun := ih (after := encode (.putc b) :: after) (by simpa using hwords)
    have hfetch : (s.written bytes).fetch = some (encode (.putc b)) := by
      simp [State.fetch, State.written, hwords, hpos]
    rw [List.length_append, List.length_singleton, runFor_succ_right hrun,
      step_putc_glyph (s := s.written bytes) hf hready hlf hfetch, State.retire_putGlyph_written hcur hf]

/-- Settles O47: the run writes glyphs, and what memory holds then is read off the writes. -/
theorem writeSequenceLaw : Obligations.WriteSequenceLaw := by
  intro s bytes before after hf hready hgrid hlf hwords hpos
  exact ⟨s.written bytes, runFor_putc hf hready hgrid hlf hwords hpos, s.written_linear bytes,
    s.written_col_toNat bytes, s.written_row_toNat bytes,
    fun k h hlast => readByte_replay_glyphEvents_last s.mem s.attr h hlast,
    fun addr h => readByte_replay_glyphEvents_other s.mem s.attr h, rfl⟩

/-- Settles O48: from linear position 0 the byte `j` goes to cell `j`, or to cell `j - 2000` in the second pass. -/
theorem rowWrapLaw : Obligations.RowWrapLaw := by
  intro s bytes k hlen hk hk' hf hready hcol hrow hlf hwords hpos
  have hlinear : s.linear = 0 := by simp [State.linear, cellIndex, hcol, hrow]
  have hgrid : CursorInGrid s := fun _ => by simp [hcol, hrow, Config.width, Config.height]
  obtain ⟨t, hrun, -, htcol, htrow, hcells, -⟩ :=
    writeSequenceLaw s bytes [] [] hf hready hgrid hlf (by simpa using hwords) hpos
  simp only [hlinear, Nat.zero_add] at htcol htrow hcells
  refine ⟨t, hrun, by omega, by omega, fun i hi => ?_, fun i hi hi' => ?_⟩
  · have hcell := hcells (2000 + i) (by omega) (by omega)
    rwa [Nat.add_mod_left, Nat.mod_eq_of_lt (by omega)] at hcell
  · have hcell := hcells i (by omega) (by omega)
    rwa [Nat.mod_eq_of_lt hi'] at hcell

end Sys2Proof.Machine

/-! PROOFS. The statements of 41_keyboard.md: the decoding function, and what KPOLL does without data, with a byte that
is dropped, and with a byte that is forwarded to the console. -/

namespace Sys2Proof.Machine

/-! ### The decoding function (R130) -/

/-- A printable entry is an ASCII code from 1 to 127: bit 7 is its sign. -/
theorem printable_iff (e : Byte) : printable e = true ↔ 1 ≤ e.toNat ∧ e.toNat ≤ 127 := by
  rw [printable, decide_eq_true_iff, BitVec.toInt_eq_toNat_cond]
  split_ifs <;> omega

/-- A byte with bit 7 set is a release, whatever the table. -/
theorem decodeSc_of_break {b : Byte} (h : 128 ≤ b.toNat) (t : ScancodeTable) : decodeSc t b = none := by
  have hbreak : isBreak b = true := by
    rw [isBreak, ← BitVec.msb_eq_getLsbD_last, BitVec.msb_eq_decide]
    exact decide_eq_true h
  rw [decodeSc, if_pos hbreak]

/-- The byte of a make code decodes to the code's entry, if that is printable. -/
theorem decodeSc_of_make {b : Byte} {m : MakeCode} (h : b.toNat = m.toNat) (t : ScancodeTable) :
    decodeSc t b = if printable (scancode t m) then some (scancode t m) else none := by
  have hm := m.isLt
  have hbreak : isBreak b = false := by
    rw [isBreak, ← BitVec.msb_eq_getLsbD_last, BitVec.msb_eq_decide]
    exact decide_eq_false (by omega)
  have hmake : makeOf b = m := by
    apply BitVec.eq_of_toNat_eq
    rw [makeOf, BitVec.extractLsb'_toNat, Nat.shiftRight_zero]
    omega
  rw [decodeSc, hbreak, if_neg Bool.false_ne_true, hmake]

/-- Settles O28: a release is dropped, and a make code is looked up. -/
theorem scancodeDecoding : Obligations.ScancodeDecoding := by
  intro t b e he
  have hlookup (hb : b.toNat < 128) : decodeSc t b = if printable e then some e else none := by
    have hm : (BitVec.ofNat 7 b.toNat).toNat = b.toNat := by rw [BitVec.toNat_ofNat, Nat.mod_eq_of_lt hb]
    have hentry : scancode t (BitVec.ofNat 7 b.toNat) = e := he.symm
    rw [decodeSc_of_make hm.symm, hentry]
  refine ⟨fun hb => decodeSc_of_break hb t, fun hb hlo hhi => ?_, fun hb hdrop => ?_⟩
  · rw [hlookup hb, if_pos ((printable_iff e).mpr ⟨hlo, hhi⟩)]
  · rw [hlookup hb, if_neg (by rw [printable_iff]; omega)]

/-! ### The reads of KPOLL (R131, R132) -/

/-- Both reads of KPOLL made, and the driver idle: nothing else is changed. -/
theorem State.afterData_polled (s : State) :
    s.polled.afterData = { s with
      kbdState := .idle
      portScript := s.portScript.drop 2, draws := s.pollRead.draws
      history := s.history ++ [.ioRead 0x64 s.statusByte, .ioRead 0x60 s.dataByte] } := by
  have hscript : s.portScript.drop 2 = s.portScript.tail.tail := by rw [← List.tail_drop, List.drop_one]
  have hhistory : s.history ++ [.ioRead 0x64 s.statusByte, .ioRead 0x60 s.dataByte] = s.polled.afterData.history :=
    s.afterData_polled_history.symm
  rw [hscript, hhistory]
  rfl

/-- Settles O29: the effect of KPOLL without data is the status read. -/
theorem kpollWithoutData : Obligations.KpollWithoutData := fun _ hs => (Effect.kpollIdle hs).exec_eq

/-! ### A forwarded character (R131) -/

/-- The command word makes a difference to `emit` in the word kept alone. -/
theorem State.emit_word (s : State) (w w' : Word) (c : Byte) :
    s.emit w c = { s.emit w' c with faultWord := (s.emit w c).faultWord } := by
  unfold State.emit
  split_ifs <;> rfl

section Emit

variable {s : State} {c : Byte}

/-- The registers `emit` must find written: the cursor, and the attribute unless the line breaks. -/
theorem State.emit_unwritten
    (h : s.curValid = false ∨ (s.attrValid = false ∧ (s.params.lfPolicy = .glyph ∨ c ≠ 0x0A))) (w : Word) :
    s.emit w c = s.raise .uninit w := by
  cases hb : s.breaksLine c with
  | false => exact State.emit_glyph_unwritten hb (h.imp_right And.left) w
  | true =>
    obtain hcur | ⟨-, hc⟩ := h
    · exact State.emit_line_unwritten hb hcur w
    · simp [(s.breaksLine_eq_false_iff c).mpr hc] at hb

/-- Where `emit` finds them written, no word is kept. -/
theorem State.emit_faultWord_of_written
    (h : ¬(s.curValid = false ∨ (s.attrValid = false ∧ (s.params.lfPolicy = .glyph ∨ c ≠ 0x0A)))) (w : Word) :
    (s.emit w c).faultWord = s.faultWord := by
  obtain ⟨-, -, he⟩ | ⟨-, hcur, -⟩ | ⟨-, -, he⟩ | ⟨hb, hw, -⟩ := s.emit_cases w c
  · rw [he, State.newLine_faultWord]
  · exact absurd (.inl hcur) h
  · rw [he]
    rfl
  · have hc := (s.breaksLine_eq_false_iff c).mp hb
    exact absurd ((Bool.and_eq_false_iff.mp hw).imp_right fun hattr => ⟨hattr, hc⟩) h

end Emit

/-- Settles O30: a forwarded byte is `emit` within KPOLL, and PUTC is `emit` within PUTC. -/
theorem kpollResult : Obligations.KpollResult := by
  obtain ⟨-, -, hword, -⟩ := encodedWordArithmetic
  refine ⟨hword, fun s r hr => ?_⟩
  obtain rfl : s.polled.afterData = r := s.afterData_polled.trans hr.symm
  refine ⟨kpollWithoutData s, fun hs hd => (Effect.kpollDrop hs hd).exec_eq, fun hs c hd => ?_⟩
  refine ⟨_, _, (Effect.kpollForward c hs hd).exec_eq, exec_putc _ c, State.emit_word _ _ _ c, ?_⟩
  split_ifs with hun
  · rw [State.emit_unwritten (s := s.polled.afterData) hun]
    rfl
  · exact State.emit_faultWord_of_written (s := s.polled.afterData) hun _

/-- Settles O33: after the two reads `emit` raises UNINIT. -/
theorem kpollFaultsUninit : Obligations.KpollFaultsUninit := by
  intro s c hs hd hun
  rw [(Effect.kpollForward c hs hd).exec_eq, State.emit_unwritten (s := s.polled.afterData) hun, s.afterData_polled]
  rfl

/-- Settles O32: after the two reads `emit` breaks the line. -/
theorem kpollForwardsNewline : Obligations.KpollForwardsNewline := by
  intro s hs hd hlf hcur hrow
  refine ⟨s.newLine.row, (State.newLine_row_toNat hrow).trans (nextRow_eq _), ?_⟩
  rw [(Effect.kpollForward _ hs hd).exec_eq,
    State.emit_line (s := s.polled.afterData) (State.breaksLine_newline hlf) hcur, State.newLine,
    State.setCursor_of_curValid (s := s.polled.afterData) hcur, s.afterData_polled]
  rfl

/-- A byte that decodes to a character, both registers written: the two reads, then the character as a glyph. -/
theorem exec_kpoll_glyph {s : State} {c : Byte} (hs : s.statusByte.getLsbD 0 = true)
    (hd : decodeSc s.table s.dataByte = some c) (hc : s.params.lfPolicy = .glyph ∨ c ≠ 0x0A) (hready : ConsoleReady s) :
    exec .kpoll s = .next (s.polled.afterData.putGlyph c) := by
  rw [(Effect.kpollForward c hs hd).exec_eq,
    State.emit_glyph (s := s.polled.afterData) ((s.breaksLine_eq_false_iff c).mpr hc) hready]

/-- Settles O31, by `putGlyph` after the two reads. -/
theorem kpollForwardsCharacter : Obligations.KpollForwardsCharacter := by
  intro s c hs hd hc hcur hattr hcol hrow
  refine ⟨_, exec_kpoll_glyph hs hd hc ⟨hcur, hattr⟩, readByte_writeCell_pack s.mem _ c s.attr,
    (State.putGlyph_place (s := s.polled.afterData) hcol hrow c).trans (advance_eq hcol hrow), ?_⟩
  rw [State.putGlyph_eq (s := s.polled.afterData) hcur, s.afterData_polled_history, List.append_assoc, pack_eq_append,
    s.afterData_polled]
  rfl

/-! ### Make codes, releases and sentinels (R133, R136) -/

/-- Settles O34: the make code's entry is written as a glyph, and the release is dropped. -/
theorem scancodeRoundTrip : Obligations.ScancodeRoundTrip := by
  intro s m hs hlf hcur hattr hcol hrow
  refine ⟨fun hm hpos => ?_, fun hm => ?_⟩
  · have hprint : printable (scancode s.table m) = true := decide_eq_true hpos
    have hd : decodeSc s.table s.dataByte = some (scancode s.table m) := by rw [decodeSc_of_make hm, if_pos hprint]
    exact ⟨_, exec_kpoll_glyph hs hd (.inl hlf) ⟨hcur, hattr⟩, rfl,
      State.putGlyph_place (s := s.polled.afterData) hcol hrow _⟩
  · have hd : decodeSc s.table s.dataByte = none := decodeSc_of_break (by omega) s.table
    exact ⟨_, (Effect.kpollDrop hs hd).exec_eq, rfl, rfl, rfl, rfl⟩

/-- Settles O35: an entry that is not positive is dropped, be it 0 as R33 has for a modifier or below as for Fn. -/
theorem sentinelsDropLikeUnmapped : Obligations.SentinelsDropLikeUnmapped := by
  refine ⟨fun s m hs hm hle => ?_, fun p t htable => ?_⟩
  · have hprint : printable (scancode s.table m) = false := decide_eq_false (by omega)
    have hd : decodeSc s.table s.dataByte = none := by
      rw [decodeSc_of_make hm, hprint, if_neg Bool.false_ne_true]
    rw [(Effect.kpollDrop hs hd).exec_eq, s.afterData_polled]
  · obtain ⟨-, -, -, hfkey, hmodifier, -⟩ := htable
    refine ⟨fun n => ?_, fun m hm => ?_⟩
    · rw [hfkey n]
      omega
    · rw [hmodifier m hm]
      exact BitVec.toInt_zero

end Sys2Proof.Machine

/-! PROOFS. The statements of 60_exceptions.md: which command raises which fault and when, what a fault leaves
unchanged, and the block that executes nothing after one. -/

namespace Sys2Proof.Machine

/-! ### The faults of a command (R152, R153, R154) -/

/-- A register that PUTC of `c` must read is unwritten: the cursor, or the attribute where `c` does not break the
line. -/
def State.Unwritten (s : State) (c : Byte) : Prop :=
  s.curValid = false ∨ (s.attrValid = false ∧ (s.params.lfPolicy = .glyph ∨ c ≠ 0x0A))

/-- The command faults with this code, and the fault is raised in this state: one case for each cause. -/
inductive Raises (s : State) : Instr → FaultCode → State → Prop where
  | clear (h : s.clearAttr = none) : Raises s .clear .uninit s
  | putcat (c a : Byte) (x : Col) (y : Row) (h : coordsLegal x y = false) : Raises s (.putcat c a x y) .coord s
  | putc (c : Byte) (h : s.Unwritten c) : Raises s (.putc c) .uninit s
  | setcur (x : Col) (y : Row) (h : coordsLegal x y = false) : Raises s (.setcur x y) .coord s
  | kpoll (c : Byte) (hs : dataReady s.statusByte = true) (hd : decodeSc s.table s.dataByte = some c)
      (h : s.Unwritten c) : Raises s .kpoll .uninit s.polled.afterData

/-- `emit` faults only where it must read an unwritten register. -/
theorem State.emit_uninit_or_keeps_fault (s : State) (w : Word) (c : Byte) :
    (s.Unwritten c ∧ s.emit w c = s.raise .uninit w) ∨
      ((s.emit w c).faulted = s.faulted ∧ (s.emit w c).faultCode = s.faultCode) := by
  obtain ⟨-, -, he⟩ | ⟨-, hcur, he⟩ | ⟨-, -, he⟩ | ⟨hb, hw, he⟩ := s.emit_cases w c
  · rw [he]
    exact .inr ⟨rfl, rfl⟩
  · exact .inl ⟨.inl hcur, he⟩
  · rw [he]
    exact .inr ⟨rfl, rfl⟩
  · have hc := (s.breaksLine_eq_false_iff c).mp hb
    exact .inl ⟨(Bool.and_eq_false_iff.mp hw).imp_right fun hattr => ⟨hattr, hc⟩, he⟩

section Faults

variable {i : Instr} {s t r : State} {code : FaultCode}

/-- A command with a cause to fault answers with the fault. -/
theorem Raises.exec_eq (h : Raises s i code r) : exec i s = .next (r.raise code (encode i)) := by
  cases h with
  | clear h => exact (Effect.clearUninit h).exec_eq
  | putcat c a x y h => exact (Effect.putcatCoord c a x y h).exec_eq
  | putc c h => exact congrArg _ (State.emit_unwritten h _)
  | setcur x y h => exact (Effect.setcurCoord x y h).exec_eq
  | kpoll c hs hd h =>
    rw [(Effect.kpollForward c hs hd).exec_eq, State.emit_unwritten (s := s.polled.afterData) h]

/-- A command faults by one of the causes, or writes neither the fault bit nor the code. -/
theorem exec_raises_or_keeps_fault (hx : exec i s = .next t) :
    (∃ code r, Raises s i code r ∧ t = r.raise code (encode i)) ∨
      (t.faulted = s.faulted ∧ t.faultCode = s.faultCode) := by
  cases exec_effect hx with
  | clearUninit h => exact .inl ⟨_, _, .clear h, rfl⟩
  | putcatCoord c a x y h => exact .inl ⟨_, _, .putcat c a x y h, rfl⟩
  | setcurCoord x y h => exact .inl ⟨_, _, .setcur x y h, rfl⟩
  | putc c => exact (s.emit_uninit_or_keeps_fault _ c).imp_left fun ⟨h, he⟩ => ⟨_, _, .putc c h, he⟩
  | kpollForward c hs hd =>
    exact (s.polled.afterData.emit_uninit_or_keeps_fault _ c).imp_left fun ⟨h, he⟩ => ⟨_, _, .kpoll c hs hd h, he⟩
  | _ => exact .inr ⟨rfl, rfl⟩

/-- From code NONE, the code after a command is the one it has a cause to raise. -/
theorem exec_faultCode_iff (hs : s.faultCode = .none) (hcode : code ≠ .none) (hx : exec i s = .next t) :
    t.faultCode = code ↔ ∃ r, Raises s i code r := by
  constructor
  · rintro rfl
    obtain ⟨code, r, hr, rfl⟩ | ⟨-, hkept⟩ := exec_raises_or_keeps_fault hx
    · exact ⟨r, hr⟩
    · exact absurd (hkept.trans hs) hcode
  · rintro ⟨r, hr⟩
    rw [hr.exec_eq] at hx
    cases hx
    rfl

theorem Raises.code_ne_none (h : Raises s i code r) : code ≠ .none := by
  cases h <;> decide

/-- A fault is raised in the state before the command, or, in a KPOLL, after its two reads. -/
theorem Raises.state_eq (h : Raises s i code r) : (i ≠ .kpoll ∧ r = s) ∨ (i = .kpoll ∧ r = s.polled.afterData) := by
  cases h with
  | kpoll => exact .inr ⟨rfl, rfl⟩
  | _ => exact .inl ⟨nofun, rfl⟩

/-- The causes of COORD: PUTCAT and SETCUR outside the grid, in the state before the command. -/
theorem raises_coord_iff : Raises s i .coord r ↔
    r = s ∧ ∃ x : Col, ∃ y : Row, (80 ≤ x.toNat ∨ 25 ≤ y.toNat) ∧ (i = .setcur x y ∨ ∃ c a, i = .putcat c a x y) := by
  simp only [← coordsLegal_eq_false_iff]
  constructor
  · rintro (_ | ⟨c, a, x, y, h⟩ | _ | ⟨x, y, h⟩)
    · exact ⟨rfl, x, y, h, .inr ⟨c, a, rfl⟩⟩
    · exact ⟨rfl, x, y, h, .inl rfl⟩
  · rintro ⟨rfl, x, y, h, rfl | ⟨c, a, rfl⟩⟩
    · exact .setcur x y h
    · exact .putcat c a x y h

/-- The causes of UNINIT: CLEAR with no attribute to paint with, PUTC, and KPOLL with a character. -/
theorem raises_uninit_iff : (∃ r, Raises s i .uninit r) ↔
    (i = .clear ∧ s.clearAttr = none) ∨
      ∃ c, (i = .putc c ∨ (i = .kpoll ∧ dataReady s.statusByte = true ∧ decodeSc s.table s.dataByte = some c)) ∧
        s.Unwritten c := by
  constructor
  · rintro ⟨r, h | _ | ⟨c, h⟩ | _ | ⟨c, hs, hd, h⟩⟩
    · exact .inl ⟨rfl, h⟩
    · exact .inr ⟨c, .inl rfl, h⟩
    · exact .inr ⟨c, .inr ⟨rfl, hs, hd⟩, h⟩
  · rintro (⟨rfl, h⟩ | ⟨c, rfl | ⟨rfl, hs, hd⟩, h⟩)
    · exact ⟨_, .clear h⟩
    · exact ⟨_, .putc c h⟩
    · exact ⟨_, .kpoll c hs hd h⟩

end Faults

/-- Settles O44: the state a fault is raised in is the one before the command but for a KPOLL's reads. -/
theorem faultsArePrecise : Obligations.FaultsArePrecise := by
  intro i s t hf hidle hx hft
  obtain ⟨code, r, hr, rfl⟩ | ⟨hkept, -⟩ := exec_raises_or_keeps_fault hx
  · obtain ⟨hi, rfl⟩ | ⟨rfl, rfl⟩ := hr.state_eq
    · exact ⟨hr.code_ne_none, rfl, ⟨[], (List.append_nil _).symm, nofun, fun _ => rfl⟩, rfl, fun _ => ⟨rfl, rfl⟩⟩
    · refine ⟨hr.code_ne_none, rfl, ⟨_, s.afterData_polled_history, ?_, fun hn => absurd rfl hn⟩, ?_,
        fun hn => absurd rfl hn⟩
      · simp
      · rw [s.afterData_polled, ← hidle]
        rfl
  · rw [hkept, hf] at hft
    cases hft

/-- Settles O45, by the causes of COORD. -/
theorem coordExactlyOutOfGrid : Obligations.CoordExactlyOutOfGrid := by
  intro i s t hs hx
  have hcoord := exec_faultCode_iff hs (code := .coord) nofun hx
  refine ⟨hcoord.trans (by simp only [raises_coord_iff, exists_eq_left]), fun hc => ?_⟩
  obtain ⟨r, hr⟩ := hcoord.mp hc
  obtain ⟨rfl, -⟩ := raises_coord_iff.mp hr
  rw [hr.exec_eq] at hx
  cases hx
  rfl

/-- Settles O46, by the causes of UNINIT. -/
theorem uninitExactlyUnwritten : Obligations.UninitExactlyUnwritten := by
  intro i s t hs hx
  rw [exec_faultCode_iff hs (code := .uninit) nofun hx, raises_uninit_iff, s.clearAttr_eq_none_iff]
  rfl

/-! ### A word that spells no command, and the block after a fault (R152, R155) -/

/-- Settles O7: the word is decoded before anything is read or written. -/
theorem illegalWordFaults : Obligations.IllegalWordFaults := by
  intro s w r hf hw hd
  rw [step, State.issue_of_error hf hw hd]
  rfl

/-- A faulted block is stuck with its fault code. -/
theorem step_of_faulted {s : State} (h : s.faulted = true) : step s = .fault (.stuck s.faultCode) := by
  rw [step, State.issue_of_faulted h]

/-- Settles O8: the fault bit is looked at before the run. -/
theorem faultedBlockIsStuck : Obligations.FaultedBlockIsStuck :=
  fun s hf words pos => step_of_faulted (s := { s with words := words, pos := pos }) hf

end Sys2Proof.Machine

/-! PROOFS. The statements of 70_reset_and_hazards.md: what reset leaves, and the invariant after it. -/

namespace Sys2Proof.Machine

/-- The table at reset keeps R33: none of the entries R33 fixes is one of the free values. -/
theorem State.reset_tableOk : TableOk State.reset.params State.reset.table := by decide

/-- Settles O11: reset writes each piece of block state, and a faulted block answers stuck. -/
theorem resetLeavesBlockUnwritten : Obligations.ResetLeavesBlockUnwritten := by
  refine ⟨fun s => ⟨rfl, rfl, rfl, rfl, rfl, rfl, readByte_nil⟩, rfl, rfl, rfl, rfl, rfl, State.reset_tableOk,
    readByte_nil, fun s t hf hs => ?_⟩
  rw [step_of_faulted hf] at hs
  cases hs

/-- With the cursor unwritten, no byte and no event, and no fault, the invariant asks nothing more. -/
theorem Inv.reset : Inv State.reset where
  cursor := nofun
  memCanonical := .nil
  memInWindow := List.forall_mem_nil _
  memFollows := rfl
  historyLegal := List.forall_mem_nil _
  kbdIdle := rfl
  fault := by constructor <;> decide

/-- The invariant does not speak of the table, the parameters and the counters. -/
theorem Inv.withTableParamsCounters {s : State} (h : Inv s) (table : ScancodeTable) (params : Params)
    (draws resets : Nat) :
    Inv { s with table := table, params := params, draws := draws, resets := resets } :=
  { h with }

theorem Inv.powerOn (s : State) : Inv s.powerOn :=
  Inv.reset.withTableParamsCounters s.table s.params s.draws (s.resets + 1)

/-- Settles O12: the base case of the invariant. -/
theorem resetMeetsInvariant : Obligations.ResetMeetsInvariant := ⟨Inv.reset, Inv.powerOn⟩

end Sys2Proof.Machine
